-- ==== Sys2Proof/Word.lean ====
section
/-! DEFINITION. The words and field elements of the PF59 core, and the 4-bit register numbers. -/

namespace Sys2Proof

/-- A 32-bit word of the host bus, and a command word (20_memory.md R51, 30_encoding.md R81). -/
abbrev Word := BitVec 32

/-- A field element of GF(59): an integer 0..58, held in a 6-bit register or cell (00_scope.md R8,
10_state.md R21). The bound is part of the type (DEDUCED, log 1: no command can write 59..63).
`+`, `-` and `*` are the integer operations reduced modulo 59 (40_field.md R103, R104, R106). -/
abbrev Elem := Fin 59

/-- The number of a field register, `F0`..`F15` (30_encoding.md R84). -/
abbrev FReg := Fin 16

/-- The number of a polynomial register, `P0`..`P15` (30_encoding.md R84). -/
abbrev PReg := Fin 16

end Sys2Proof
end

