-- ==== Sys2Proof/Syntax.lean ====
section
/-! DEFINITION. The 36 commands of the PF59 core, one constructor per row of spec/opcode_table.json
(30_encoding.md R86). Operands stand in the order of the assembler syntax (R89): destinations, sources,
immediate. -/

namespace Sys2Proof

/-- The working polynomials BMGET can select, 0..4 in this order (10_state.md R27, 43_berlekamp_massey.md
R193). -/
inductive WSel where
  | s | sigma | omega | tau | gamma
deriving DecidableEq, Repr

/-- A command. `d`, `a`, `b`, `c` are the register fields of 30_encoding.md R82; whether one names an F or a
P register is the command's own rule. -/
inductive Instr where
  | nop
  | fli (d : FReg) (imm : BitVec 14)
  | fmov (d a : FReg)
  | fadd (d a b : FReg)
  | fsub (d a b : FReg)
  | fneg (d a : FReg)
  | fmul (d a b : FReg)
  | fdiv (d a b : FReg)
  | finv (d a : FReg)
  | fpow (d a : FReg) (imm : BitVec 14)
  | fpowf (d a b : FReg)
  | feq (a b : FReg)
  | pclr (d : PReg)
  | pmov (d a : PReg)
  | ppush (d : PReg) (a : FReg)
  | ppushi (d : PReg) (imm : BitVec 14)
  | psetc (d : PReg) (a : FReg) (imm : BitVec 14)
  | pgetc (d : FReg) (a : PReg) (imm : BitVec 14)
  | padd (d a b : PReg)
  | psub (d a b : PReg)
  | pmul (d a b : PReg)
  | pscale (d a : PReg) (b : FReg)
  | pshl (d a : PReg) (imm : BitVec 14)
  | pshr (d a : PReg) (imm : BitVec 14)
  /-- `d` the quotient, `c` the remainder, `a` the dividend, `b` the divisor. -/
  | pdivmod (d c a b : PReg)
  | peval (d : FReg) (a : PReg) (b : FReg)
  | peq (a b : PReg)
  | rscfg (n k : BitVec 7)
  | rssyn (d a : PReg)
  | bminit (a : PReg)
  | bmstep
  /-- `d` receives σ, `c` receives ω, `a` holds the syndromes. -/
  | rsbm (d c a : PReg)
  | bmget (d : PReg) (sel : WSel)
  | rsroot (a : PReg)
  | rsforney (a : PReg)
  | rsepoly (d : PReg)
deriving DecidableEq, Repr

end Sys2Proof
end

