-- ==== Sys2Proof/WellFormed.lean ====
section
/-! DEFINITION. Which terms of `Instr` some command word encodes (30_encoding.md R80). The field widths and
the BMGET selectors are in the types; what is left is that two destinations differ (R84). -/

namespace Sys2Proof

/-- PDIVMOD and RSBM name two different destinations (30_encoding.md R80, R84); every other term is
encodable whatever its operands. -/
def Instr.wellFormed : Instr → Bool
  | .pdivmod d c _ _ => decide (d ≠ c)
  | .rsbm d c _ => decide (d ≠ c)
  | _ => true

end Sys2Proof
end

