-- ==== Sys2Proof/Decode.lean ====
section
/-! DEFINITION. The decoder (30_encoding.md R80 to R88), total on every 32-bit word and refusing by name, and
after it the encoder, written from the same tables. -/

namespace Sys2Proof

/-- Why a word is no command. Each of them is the core's `IllegalCommand` (30_encoding.md R80, R87). -/
inductive Illegal where
  /-- The opcode is not in the table of R86. -/
  | reservedOpcode
  /-- A field that the format does not use is not 0 (R83). -/
  | reservedBits
  /-- BMGET with a selector above 4. -/
  | selector
  /-- PDIVMOD or RSBM with `d = c`. -/
  | sameDestination
deriving DecidableEq, Repr

/-- The formats of 30_encoding.md R83. -/
inductive Format where
  | n | d | a | da | dab | ab | di | dai | dcab | dca | i
deriving DecidableEq, Repr

/-- `w[hi:lo]`, the unsigned field of bits hi down to lo (00_scope.md R10). -/
def bits (w : Word) (hi lo : Nat) : Nat := w.toNat / 2 ^ lo % 2 ^ (hi + 1 - lo)

/-- A 4-bit register field whose lowest bit is `lo` (30_encoding.md R82). -/
def regField (w : Word) (lo : Nat) : Fin 16 := Fin.ofNat 16 (bits w (lo + 3) lo)

/-- `imm = w[13:0]` (30_encoding.md R82). -/
def immField (w : Word) : BitVec 14 := BitVec.ofNat 14 (bits w 13 0)

/-- The reserved fields of each format, as (hi, lo) pairs: the column "reserved (must be 0)" of
30_encoding.md R83. -/
def Format.reserved : Format → List (Nat × Nat)
  | .n => [(25, 0)]
  | .d => [(21, 0)]
  | .a => [(25, 22), (17, 0)]
  | .da => [(17, 0)]
  | .dab => [(13, 0)]
  | .ab => [(25, 22), (13, 0)]
  | .di => [(21, 14)]
  | .dai => [(17, 14)]
  | .dcab => [(9, 0)]
  | .dca => [(17, 14), (9, 0)]
  | .i => [(25, 14)]

/-- Every reserved field of the format is 0 in `w`. -/
def Format.reservedClear (fmt : Format) (w : Word) : Bool :=
  fmt.reserved.all fun f => decide (bits w f.1 f.2 = 0)

/-- The format of an opcode, `none` for a reserved one (30_encoding.md R86, R87). -/
def formatOf : Nat → Option Format
  | 0x00 => some .n
  | 0x01 => some .di
  | 0x02 => some .da
  | 0x03 => some .dab
  | 0x04 => some .dab
  | 0x05 => some .da
  | 0x06 => some .dab
  | 0x07 => some .dab
  | 0x08 => some .da
  | 0x09 => some .dai
  | 0x0A => some .dab
  | 0x0B => some .ab
  | 0x10 => some .d
  | 0x11 => some .da
  | 0x12 => some .da
  | 0x13 => some .di
  | 0x14 => some .dai
  | 0x15 => some .dai
  | 0x16 => some .dab
  | 0x17 => some .dab
  | 0x18 => some .dab
  | 0x19 => some .dab
  | 0x1A => some .dai
  | 0x1B => some .dai
  | 0x1C => some .dcab
  | 0x1D => some .dab
  | 0x1E => some .ab
  | 0x20 => some .i
  | 0x21 => some .da
  | 0x22 => some .a
  | 0x23 => some .n
  | 0x24 => some .dca
  | 0x25 => some .di
  | 0x26 => some .a
  | 0x27 => some .a
  | 0x28 => some .d
  | _ => none

/-- The BMGET selector of an immediate, `none` above 4 (30_encoding.md R85). -/
def selOfImm (imm : BitVec 14) : Option WSel :=
  match imm.toNat with
  | 0 => some .s
  | 1 => some .sigma
  | 2 => some .omega
  | 3 => some .tau
  | 4 => some .gamma
  | _ => none

/-- The command of an opcode and its fields, with the last two checks of 30_encoding.md R80. -/
def assemble (op : Nat) (d a b c : Fin 16) (imm : BitVec 14) : Except Illegal Instr :=
  match op with
  | 0x00 => .ok .nop
  | 0x01 => .ok (.fli d imm)
  | 0x02 => .ok (.fmov d a)
  | 0x03 => .ok (.fadd d a b)
  | 0x04 => .ok (.fsub d a b)
  | 0x05 => .ok (.fneg d a)
  | 0x06 => .ok (.fmul d a b)
  | 0x07 => .ok (.fdiv d a b)
  | 0x08 => .ok (.finv d a)
  | 0x09 => .ok (.fpow d a imm)
  | 0x0A => .ok (.fpowf d a b)
  | 0x0B => .ok (.feq a b)
  | 0x10 => .ok (.pclr d)
  | 0x11 => .ok (.pmov d a)
  | 0x12 => .ok (.ppush d a)
  | 0x13 => .ok (.ppushi d imm)
  | 0x14 => .ok (.psetc d a imm)
  | 0x15 => .ok (.pgetc d a imm)
  | 0x16 => .ok (.padd d a b)
  | 0x17 => .ok (.psub d a b)
  | 0x18 => .ok (.pmul d a b)
  | 0x19 => .ok (.pscale d a b)
  | 0x1A => .ok (.pshl d a imm)
  | 0x1B => .ok (.pshr d a imm)
  | 0x1C => if d = c then .error .sameDestination else .ok (.pdivmod d c a b)
  | 0x1D => .ok (.peval d a b)
  | 0x1E => .ok (.peq a b)
  | 0x20 => .ok (.rscfg (BitVec.ofNat 7 (imm.toNat / 2 ^ 7)) (BitVec.ofNat 7 imm.toNat))
  | 0x21 => .ok (.rssyn d a)
  | 0x22 => .ok (.bminit a)
  | 0x23 => .ok .bmstep
  | 0x24 => if d = c then .error .sameDestination else .ok (.rsbm d c a)
  | 0x25 =>
    match selOfImm imm with
    | some sel => .ok (.bmget d sel)
    | none => .error .selector
  | 0x26 => .ok (.rsroot a)
  | 0x27 => .ok (.rsforney a)
  | 0x28 => .ok (.rsepoly d)
  | _ => .error .reservedOpcode

/-- Decode a command word (30_encoding.md R80): the opcode, then the reserved fields, then the checks of
`assemble`. No register or configuration is looked at (60_exceptions.md R234). -/
def decode (w : Word) : Except Illegal Instr :=
  match formatOf (bits w 31 26) with
  | none => .error .reservedOpcode
  | some fmt =>
    if fmt.reservedClear w then
      assemble (bits w 31 26) (regField w 22) (regField w 18) (regField w 14) (regField w 10)
        (immField w)
    else .error .reservedBits

/-- The command word of the fields (30_encoding.md R82); `low` is `imm`, or `c` in its place. -/
def pack (op : Nat) (d a b : Fin 16) (low : Nat) : Word :=
  BitVec.ofNat 32 (op * 2 ^ 26 + d.val * 2 ^ 22 + a.val * 2 ^ 18 + b.val * 2 ^ 14 + low)

/-- The `c` field in place (30_encoding.md R82). -/
def cLow (c : Fin 16) : Nat := c.val * 2 ^ 10

/-- The selector value of a working polynomial (43_berlekamp_massey.md R193). -/
def immOfSel : WSel → Nat
  | .s => 0
  | .sigma => 1
  | .omega => 2
  | .tau => 3
  | .gamma => 4

/-- The opcode of a command (30_encoding.md R86). -/
def Instr.opcode : Instr → Nat
  | .nop => 0x00
  | .fli _ _ => 0x01
  | .fmov _ _ => 0x02
  | .fadd _ _ _ => 0x03
  | .fsub _ _ _ => 0x04
  | .fneg _ _ => 0x05
  | .fmul _ _ _ => 0x06
  | .fdiv _ _ _ => 0x07
  | .finv _ _ => 0x08
  | .fpow _ _ _ => 0x09
  | .fpowf _ _ _ => 0x0A
  | .feq _ _ => 0x0B
  | .pclr _ => 0x10
  | .pmov _ _ => 0x11
  | .ppush _ _ => 0x12
  | .ppushi _ _ => 0x13
  | .psetc _ _ _ => 0x14
  | .pgetc _ _ _ => 0x15
  | .padd _ _ _ => 0x16
  | .psub _ _ _ => 0x17
  | .pmul _ _ _ => 0x18
  | .pscale _ _ _ => 0x19
  | .pshl _ _ _ => 0x1A
  | .pshr _ _ _ => 0x1B
  | .pdivmod _ _ _ _ => 0x1C
  | .peval _ _ _ => 0x1D
  | .peq _ _ => 0x1E
  | .rscfg _ _ => 0x20
  | .rssyn _ _ => 0x21
  | .bminit _ => 0x22
  | .bmstep => 0x23
  | .rsbm _ _ _ => 0x24
  | .bmget _ _ => 0x25
  | .rsroot _ => 0x26
  | .rsforney _ => 0x27
  | .rsepoly _ => 0x28

/-- The command word of a command (30_encoding.md R82, R83, R85, R86): the fields the format uses, the others 0. -/
def encode (i : Instr) : Word :=
  match i with
  | .nop | .bmstep => pack i.opcode 0 0 0 0
  | .fli d imm | .ppushi d imm => pack i.opcode d 0 0 imm.toNat
  | .fmov d a | .fneg d a | .finv d a | .pmov d a | .ppush d a | .rssyn d a => pack i.opcode d a 0 0
  | .fadd d a b | .fsub d a b | .fmul d a b | .fdiv d a b | .fpowf d a b | .padd d a b | .psub d a b
  | .pmul d a b | .pscale d a b | .peval d a b => pack i.opcode d a b 0
  | .fpow d a imm | .psetc d a imm | .pgetc d a imm | .pshl d a imm | .pshr d a imm =>
    pack i.opcode d a 0 imm.toNat
  | .feq a b | .peq a b => pack i.opcode 0 a b 0
  | .pclr d | .rsepoly d => pack i.opcode d 0 0 0
  | .bminit a | .rsroot a | .rsforney a => pack i.opcode 0 a 0 0
  | .pdivmod d c a b => pack i.opcode d a b (cLow c)
  | .rsbm d c a => pack i.opcode d a 0 (cLow c)
  | .rscfg n k => pack i.opcode 0 0 0 (n.toNat * 2 ^ 7 + k.toNat)
  | .bmget d sel => pack i.opcode d 0 0 (immOfSel sel)

/-- The instruction the decoder reads from a row of spec/opcode_table.json whose bits are `w`: the command
word itself, every bit at or above `nbits` 0. -/
def decodeTableWord (nbits w : Nat) : Option Instr :=
  match decode (BitVec.ofNat 32 (w % 2 ^ nbits)) with
  | .ok i => some i
  | .error _ => none

end Sys2Proof
end

