-- ==== Sys2Proof/Machine/Galois.lean ====
section
/-! DEFINITION. The field primitives of 00_scope.md R12 and 40_field.md beyond `+`, `-`, `*`: powers, inverses,
powers of the generator. -/

namespace Sys2Proof.Machine

/-- `x^e mod 59` for an integer `e >= 0`, so `x^0 = 1` for every `x`, 0 too (40_field.md R109). The power is
computed exactly and reduced once, which is the value of the rule's repeated multiplication. -/
def powElem (x : Elem) (e : Nat) : Elem := ⟨x.val ^ e % 59, Nat.mod_lt _ (by decide)⟩

/-- `inv(v)`, the `w` with `v * w mod 59 = 1` for `v != 0` (00_scope.md R12), as `v^57 mod 59` (40_field.md
R108). The spec leaves `inv(0)` undefined; every meaning faults before it would use it (log 11). -/
def invElem (v : Elem) : Elem := powElem v 57

/-- `pow2(e) = 2^(e mod 58) mod 59`, the powers of the generator 2 (00_scope.md R8, R12). -/
def pow2 (e : Nat) : Elem := powElem 2 (e % 58)

end Sys2Proof.Machine
end

