-- ==== Sys2Proof/Config.lean ====
section
/-! DEFINITION. What the spec leaves open or fixes for the implementation: the one free value, and the ID
constant. -/

namespace Sys2Proof

/-- The word a host read returns for a register other than STATUS and ID while BUSY = 1: unspecified
(93_implementation_defined.md U1; 10_state.md R39). A FREE VALUE, one for each draw (`State.draws`
counts them): nothing is known of it (DESIGN CHOICE in its form, log 4). -/
opaque Config.busyRead : Nat → Word

/-- The constant of the ID register, the ASCII bytes "PF59" (10_state.md R33). -/
def Config.idValue : Word := 0x50463539

end Sys2Proof
end

