-- ==== Sys2Proof/Machine/State.lean ====
section
/-! DEFINITION. The architectural state of the PF59 core (10_state.md R20), the events the host and the core
take part in, and the state after reset (R40). Plain data throughout. -/

namespace Sys2Proof.Machine

/-- The coefficient cells of a polynomial: cell `j` is the coefficient of x^j (10_state.md R22). -/
abbrev Coeffs := Vector Elem 128

/-- A polynomial register or working polynomial: its cells and its 7-bit field `DEG` (10_state.md R22, R27). -/
structure Poly where
  c : Coeffs
  degReg : BitVec 7
deriving DecidableEq, Repr

/-- The zero polynomial, "a single zero coefficient" (00_scope.md R12, R13). -/
def Poly.zero : Poly := ⟨Vector.replicate 128 0, 0⟩

/-- The polynomial 1 (00_scope.md R12). -/
def Poly.one : Poly := ⟨(Vector.replicate 128 0).set 0 1, 0⟩

/-- The RS configuration (10_state.md R26). -/
structure RsConfig where
  n : BitVec 6
  k : BitVec 6
  nk : BitVec 6
  cfgv : Bool
deriving DecidableEq, Repr

/-- The Berlekamp-Massey working state: `W_S`, `W_SIG`, `W_OM`, `W_TAU`, `W_GAM`, `BM_D`, `BM_B`, `BM_L`
(10_state.md R27). -/
structure BmState where
  ws : Poly
  sig : Poly
  om : Poly
  tau : Poly
  gam : Poly
  d : BitVec 7
  b : Bool
  l : BitVec 7
deriving DecidableEq, Repr

/-- The error list: `ERRCNT` (0..58), `ERRPOS` (0..57 each), `ERRLOC`, `ERRMAG` (10_state.md R29). -/
structure ErrList where
  cnt : Fin 59
  pos : Vector (Fin 58) 58
  loc : Vector Elem 58
  mag : Vector Elem 58
deriving DecidableEq, Repr

/-- What is in progress (10_state.md R20.8, R39): nothing, the command whose word was accepted from CMD, or a
reset. BUSY is 0 exactly in the first (R31; DEDUCED, log 2). -/
inductive Activity where
  | idle
  | command (w : Word)
  | resetting
deriving DecidableEq, Repr

/-- The fault codes of 60_exceptions.md R230, by name. The last three are reserved for host software (R232):
the core never raises them. -/
inductive FaultKind where
  | invalidFieldValue
  | noInverse
  | invalidOperand
  | divisionByZero
  | invalidParameters
  | capacityExceeded
  | illegalCommand
  | messageTooLong
  | invalidSymbol
  | uncorrectableError
deriving DecidableEq, Repr

/-- The registers of the host register map (20_memory.md R52); `unmapped` is every other offset (R59, R63). -/
inductive HostReg where
  | id | ctrl | status | cmd | errcmd | cfg | bmctl | errcnt
  | freg (i : Fin 16)
  | pdeg (i : Fin 16)
  | wdeg (w : Fin 5)
  | errpos (i : Fin 58)
  | errloc (i : Fin 58)
  | errmag (i : Fin 58)
  | pcoef (r : Fin 16) (j : Fin 128)
  | wcoef (w : Fin 5) (j : Fin 128)
  | unmapped
deriving DecidableEq, Repr

/-- What the host can do (20_memory.md R70, 70_reset_and_hazards.md R260): read a word, write a word, drive the
reset input. -/
inductive HostOp where
  | read (addr : BitVec 16)
  | write (addr : BitVec 16) (v : Word)
  | resetInput
deriving DecidableEq, Repr

/-- One event of a run: the host acts, or the core completes what is in progress (20_memory.md R56, R65). -/
inductive Event where
  | host (op : HostOp)
  | core
deriving DecidableEq, Repr

/-- The state of the machine: 10_state.md R20's eight groups, and the model's own last three fields. -/
structure State where
  /-- The field registers `F[0..15]` (R21). -/
  f : Vector Elem 16
  /-- The polynomial registers `P[0..15]` (R22). -/
  p : Vector Poly 16
  /-- The Z flag (R24). -/
  z : Bool
  /-- `N`, `K`, `NK`, `CFGV` (R26). -/
  cfg : RsConfig
  /-- The Berlekamp-Massey working state (R27). -/
  bm : BmState
  /-- The error list (R29). -/
  errs : ErrList
  /-- `STATUS.ERR` (R31). -/
  err : Bool
  /-- `STATUS.ECODE` (R31). -/
  ecode : BitVec 4
  /-- `STATUS.OVR` (R31). -/
  ovr : Bool
  /-- `ERRCMD` (R35). -/
  errcmd : Word
  /-- The in-flight command or reset, and with it BUSY (R31, R39). -/
  activity : Activity
  /-- The model's own (DESIGN CHOICE, log 3): what the host and the core do next, in order. -/
  agenda : List Event
  /-- The model's own (DESIGN CHOICE, log 5): the word the host's last read returned. -/
  busData : Word
  /-- The model's own (DESIGN CHOICE, log 4): how many unspecified read values have been drawn. -/
  draws : Nat
deriving DecidableEq, Repr

/-- The reasons for which the machine stops for good: none. A fault of the spec ends a command and is
recorded in STATUS and ERRCMD (60_exceptions.md R235): a next state. Nobody raises this (safe, log 9). -/
inductive Fault where
deriving DecidableEq, Repr

/-- The reasons for which an instruction has no meaning in the model. -/
inductive Refusal where
  /-- Raised by an arm of `exec` whose instruction is not modelled yet; no arm is so (safe). -/
  | notModelled (mnemonic : String)
deriving DecidableEq, Repr

/-- What a meaning and a step answer. -/
abbrev Result := Host.Outcome State Fault Refusal

/-- The working state after reset: BMINIT of the zero polynomial (10_state.md R40, 70_reset_and_hazards.md
R262). -/
def BmState.reset : BmState :=
  { ws := Poly.zero, sig := Poly.one, om := Poly.one, tau := Poly.one, gam := Poly.zero
    d := 0, b := false, l := 0 }

/-- The error list after reset: empty, every entry 0 (10_state.md R40). -/
def ErrList.reset : ErrList :=
  { cnt := 0, pos := Vector.replicate 58 0, loc := Vector.replicate 58 0
    mag := Vector.replicate 58 0 }

/-- The machine right after a reset has completed (10_state.md R40). The last three fields are the model's own
(DESIGN CHOICE, log 5). -/
def State.reset : State :=
  { f := Vector.replicate 16 0
    p := Vector.replicate 16 Poly.zero
    z := false
    cfg := { n := 0, k := 0, nk := 0, cfgv := false }
    bm := BmState.reset
    errs := ErrList.reset
    err := false
    ecode := 0
    ovr := false
    errcmd := 0
    activity := .idle
    agenda := []
    busData := 0
    draws := 0 }

end Sys2Proof.Machine
end

