-- ==== Sys2Proof/Machine/PolyOps.lean ====
section
/-! DEFINITION. The polynomial primitives of 00_scope.md R12 and the polynomial arithmetic of 41_poly.md, each
as a function on polynomial values. A result is given by its coefficients, one for each power, and made
canonical by `canon`. -/

namespace Sys2Proof.Machine

/-- Element `j` of a list of cells, 0 past its end. -/
def nthElem : List Elem → Nat → Elem
  | [], _ => 0
  | v :: _, 0 => v
  | _ :: vs, j + 1 => nthElem vs j

/-- The largest power with a nonzero cell, among cells that start at power `j`; `best` when there is none. -/
def topPower : List Elem → Nat → Nat → Nat
  | [], _, best => best
  | v :: vs, j, best => topPower vs (j + 1) (if v = 0 then best else j)

/-- `q.c[j]`, the coefficient of x^j; 0 for a power above 127 (41_poly.md R136). -/
def Poly.coeff (q : Poly) (j : Nat) : Elem := nthElem q.c.toList j

/-- `deg(q)`: the largest `j` with `q.c[j] != 0`, 0 for the zero polynomial (00_scope.md R12). -/
def Poly.deg (q : Poly) : Nat := topPower q.c.toList 0 0

/-- `isZero(q)`: every coefficient is 0 (00_scope.md R12). -/
def Poly.isZero (q : Poly) : Bool := q.c.toList.all fun v => decide (v = 0)

/-- The 128 cells with the given coefficient at each power. -/
def cellsOf (coef : Nat → Elem) : Coeffs := ⟨((List.range 128).map coef).toArray, by simp⟩

/-- `canon(c)`: the polynomial with these coefficients at the powers 0..127, its `DEG` field computed from
them (00_scope.md R12, R13). -/
def canon (coef : Nat → Elem) : Poly :=
  let cells := cellsOf coef
  { c := cells, degReg := BitVec.ofNat 7 (topPower cells.toList 0 0) }

/-- The sum `f 0 + ... + f (n - 1)` modulo 59. -/
def sumTo (f : Nat → Elem) : Nat → Elem
  | 0 => 0
  | n + 1 => sumTo f n + f n

/-- Horner's method from power `j` down to 0, starting from `acc` (00_scope.md R12). -/
def hornerFrom (q : Poly) (x : Elem) : Nat → Elem → Elem
  | 0, acc => acc * x + q.coeff 0
  | j + 1, acc => hornerFrom q x j (acc * x + q.coeff (j + 1))

/-- `eval(q, x)` (00_scope.md R12). -/
def Poly.eval (q : Poly) (x : Elem) : Elem := hornerFrom q x q.deg 0

/-- Coefficientwise sum (41_poly.md R137). -/
def Poly.add (a b : Poly) : Poly := canon fun j => a.coeff j + b.coeff j

/-- Coefficientwise difference (41_poly.md R138). -/
def Poly.sub (a b : Poly) : Poly := canon fun j => a.coeff j - b.coeff j

/-- Product with a field element (41_poly.md R140). -/
def Poly.scale (a : Poly) (v : Elem) : Poly := canon fun j => a.coeff j * v

/-- The convolution of two coefficient sequences at power `j`: the sum over `i` in 0..j of
`a.c[i] * b.c[j-i]` (41_poly.md R139). -/
def convCoeff (a b : Nat → Elem) (j : Nat) : Elem := sumTo (fun i => a i * b (j - i)) (j + 1)

/-- The product at the powers 0..127 (41_poly.md R139). -/
def Poly.mul (a b : Poly) : Poly := canon (convCoeff a.coeff b.coeff)

/-- Multiplication by x^s at the powers 0..127 (41_poly.md R141). -/
def Poly.shiftUp (q : Poly) (s : Nat) : Poly :=
  canon fun j => if s ≤ j then q.coeff (j - s) else 0

/-- Division by x^s without the remainder (41_poly.md R142). -/
def Poly.shiftDown (q : Poly) (s : Nat) : Poly := canon fun j => q.coeff (j + s)

/-- `q * x + v` (41_poly.md R133). -/
def Poly.push (q : Poly) (v : Elem) : Poly :=
  canon fun j => if j = 0 then v else q.coeff (j - 1)

/-- `q` with the coefficient of x^p replaced by `v` (41_poly.md R135). -/
def Poly.setCoeff (q : Poly) (p : Nat) (v : Elem) : Poly :=
  canon fun j => if j = p then v else q.coeff j

/-- All 128 coefficients agree (00_scope.md R13, 41_poly.md R145). -/
def Poly.same (a b : Poly) : Bool := decide (a.c = b.c)

/-- One elimination step of long division at power `i = k + db` (41_poly.md R143): quotient coefficient
`m = r.c[i] * t` at power `k`, and `m` times the divisor shifted up by `k` taken from the running remainder. -/
def divStep (bv : Poly) (db : Nat) (t : Elem) (k : Nat) (qr : Poly × Poly) : Poly × Poly :=
  let m := qr.2.coeff (k + db) * t
  (qr.1.setCoeff k m,
   canon fun j =>
     if k ≤ j ∧ j ≤ k + db then qr.2.coeff j - m * bv.coeff (j - k) else qr.2.coeff j)

/-- The elimination steps at `k = n - 1` down to 0 (41_poly.md R143). -/
def divLoop (bv : Poly) (db : Nat) (t : Elem) : Nat → Poly × Poly → Poly × Poly
  | 0, qr => qr
  | n + 1, qr => divLoop bv db t n (divStep bv db t n qr)

/-- Quotient and remainder of `a` by a nonzero `b` (41_poly.md R143): the powers `i` from `deg a` down to
`deg b`, no step when `deg a < deg b`. -/
def Poly.divMod (a b : Poly) : Poly × Poly :=
  divLoop b b.deg (invElem (b.coeff b.deg)) (a.deg + 1 - b.deg) (Poly.zero, canon a.coeff)

end Sys2Proof.Machine
end

