-- ==== Sys2Proof/Machine/Flags.lean ====
section
/-! DEFINITION. The values of the Z flag (10_state.md R24), the one condition flag of the core. -/

namespace Sys2Proof.Machine

/-- Z of a command that writes a field register: 1 iff the value written is 0. -/
def zOfElem (v : Elem) : Bool := decide (v = 0)

/-- Z of a command that writes a polynomial register (for PDIVMOD the remainder): 1 iff it is the zero
polynomial. -/
def zOfPoly (q : Poly) : Bool := q.isZero

/-- Z of FEQ: 1 iff the two field elements are equal (40_field.md R111). -/
def zOfElemEq (x y : Elem) : Bool := decide (x = y)

/-- Z of PEQ: 1 iff all coefficients are equal (41_poly.md R145). -/
def zOfPolyEq (a b : Poly) : Bool := a.same b

/-- Z of RSROOT: 1 iff no root was found (44_roots_forney.md R210). -/
def zOfCount (cnt : Fin 59) : Bool := decide (cnt.val = 0)

end Sys2Proof.Machine
end

