-- ==== Sys2Proof/Machine/Operands.lean ====
section
/-! DEFINITION. The operand forms of 30_encoding.md R84 and R85: register operands and the immediates. -/

namespace Sys2Proof.Machine

/-- `F[i]`; every index is legal and none is special (30_encoding.md R84, 10_state.md R21). -/
def State.readF (s : State) (i : FReg) : Elem := s.f[i]

/-- `P[i]` (30_encoding.md R84, 10_state.md R22). -/
def State.readP (s : State) (i : PReg) : Poly := s.p[i]

/-- A working polynomial by its number 0..4 (10_state.md R27). -/
def BmState.work (b : BmState) : WSel → Poly
  | .s => b.ws
  | .sigma => b.sig
  | .omega => b.om
  | .tau => b.tau
  | .gamma => b.gam

/-- The form u14: `zext(imm)`, 0..16383 (30_encoding.md R85). -/
def u14 (imm : BitVec 14) : Nat := imm.toNat

/-- The form s14: `sext_14(imm)`, -8192..8191 (30_encoding.md R85, 00_scope.md R10). -/
def s14 (imm : BitVec 14) : Int :=
  if imm.toNat < 8192 then (imm.toNat : Int) else (imm.toNat : Int) - 16384

/-- A u14 immediate meant as a field element: `none` for 59..16383 (40_field.md R101, 41_poly.md R134). -/
def elemOfImm (imm : BitVec 14) : Option Elem :=
  if h : u14 imm < 59 then some ⟨u14 imm, h⟩ else none

/-- The form nk is a legal configuration: `1 <= k < n <= 58` (42_rs_config_syndrome.md R170). -/
def legalConfig (n k : BitVec 7) : Bool :=
  decide (1 ≤ k.toNat ∧ k.toNat < n.toNat ∧ n.toNat ≤ 58)

end Sys2Proof.Machine
end

