-- ==== Sys2Proof/Machine/Ops.lean ====
section
/-! DEFINITION. The named operations over the state: writing results, taking a fault and returning from one
(60_exceptions.md R235, R238), accepting a command, beginning and completing a reset. -/

namespace Sys2Proof.Machine

/-- STATUS.BUSY: a command or a reset is in progress (10_state.md R31). -/
def State.busy (s : State) : Bool :=
  match s.activity with
  | .idle => false
  | .command _ => true
  | .resetting => true

/-- The code STATUS.ECODE records for a fault (60_exceptions.md R230). -/
def FaultKind.code : FaultKind → BitVec 4
  | .invalidFieldValue => 1
  | .noInverse => 2
  | .invalidOperand => 3
  | .divisionByZero => 4
  | .invalidParameters => 5
  | .capacityExceeded => 6
  | .illegalCommand => 7
  | .messageTooLong => 8
  | .invalidSymbol => 9
  | .uncorrectableError => 10

/-- `F[d] <- v`, with Z from the value written (10_state.md R24). -/
def State.putF (s : State) (d : FReg) (v : Elem) : State :=
  { s with f := s.f.set d v, z := zOfElem v }

/-- `P[d] <- q`, with Z from the polynomial written (10_state.md R24). -/
def State.putP (s : State) (d : PReg) (q : Poly) : State :=
  { s with p := s.p.set d q, z := zOfPoly q }

/-- FAULT ENTRY, the one operation every faulting command goes through (60_exceptions.md R235): the fault is
recorded with the word `w`, BUSY falls, and nothing else changes (R236). -/
def State.raise (s : State) (w : Word) (k : FaultKind) : State :=
  { s with err := true, ecode := k.code, errcmd := w, activity := .idle }

/-- FAULT RETURN, CTRL.CLR_ERR (60_exceptions.md R238, 10_state.md R32): nothing but the record is cleared, and a
command in flight goes on. -/
def State.clearErr (s : State) : State :=
  { s with err := false, ecode := 0, ovr := false, errcmd := 0 }

/-- The end of a command: BUSY falls (20_memory.md R56). -/
def State.retire (s : State) : State := { s with activity := .idle }

/-- A write of `w` to CMD (20_memory.md R56): discarded, setting OVR, while busy or faulted; otherwise `w` is in
flight. -/
def State.issue (s : State) (w : Word) : State :=
  if s.busy || s.err then { s with ovr := true } else { s with activity := .command w }

/-- A reset begins (70_reset_and_hazards.md R260, R261): a command in flight is abandoned. The fields keep their
values until the reset completes (DEDUCED, log 6). -/
def State.beginReset (s : State) : State := { s with activity := .resetting }

/-- A reset completes: every piece of state has its reset value (10_state.md R40). The model's own fields, the
host's side, stay. -/
def State.finishReset (s : State) : State :=
  { State.reset with agenda := s.agenda, busData := s.busData, draws := s.draws }

end Sys2Proof.Machine
end

