-- ==== Sys2Proof/Machine/Bus.lean ====
section
/-! DEFINITION. The host register map: which register an offset names, what a read returns, what a write does
(20_memory.md R51 to R64; 10_state.md R31 to R38). -/

namespace Sys2Proof.Machine

/-- The control and status register at word number `m` (20_memory.md R52). -/
def controlReg (m : Nat) : Option HostReg :=
  match m with
  | 0 => some .id
  | 1 => some .ctrl
  | 2 => some .status
  | 3 => some .cmd
  | 4 => some .errcmd
  | 5 => some .cfg
  | 6 => some .bmctl
  | 7 => some .errcnt
  | _ => none

/-- The entry of the window of `n` words from offset `base` that word number `m` is, if it is one. -/
def windowEntry (base n m : Nat) : Option (Fin n) :=
  if h : base / 4 ≤ m ∧ m < base / 4 + n then some ⟨m - base / 4, by omega⟩ else none

/-- The data window entry at word number `m` (20_memory.md R52). -/
def windowReg (m : Nat) : Option HostReg :=
  ((windowEntry 0x40 16 m).map HostReg.freg).or <|
  ((windowEntry 0x80 16 m).map HostReg.pdeg).or <|
  ((windowEntry 0xC0 5 m).map HostReg.wdeg).or <|
  ((windowEntry 0x100 58 m).map HostReg.errpos).or <|
  ((windowEntry 0x200 58 m).map HostReg.errloc).or <|
  ((windowEntry 0x300 58 m).map HostReg.errmag).or <|
  ((windowEntry 0x4000 (16 * 128) m).map fun e =>
    HostReg.pcoef ⟨e.val / 128, by omega⟩ ⟨e.val % 128, by omega⟩).or <|
  ((windowEntry 0x6000 (5 * 128) m).map fun e =>
    HostReg.wcoef ⟨e.val / 128, by omega⟩ ⟨e.val % 128, by omega⟩)

/-- The register at word number `m`, which is its offset divided by 4; every other one is unmapped (20_memory.md
R52, R63). -/
def regOfWord (m : Nat) : HostReg := ((controlReg m).or (windowReg m)).getD .unmapped

/-- The register an offset names: address bits [1:0] are ignored (20_memory.md R51). -/
def regOfAddr (addr : BitVec 16) : HostReg := regOfWord (addr.toNat / 4)

/-- Working polynomial `w` in the numbering of 10_state.md R27. -/
def BmState.workNo (b : BmState) (w : Fin 5) : Poly :=
  match w with
  | 0 => b.work .s
  | 1 => b.work .sigma
  | 2 => b.work .omega
  | 3 => b.work .tau
  | 4 => b.work .gamma

/-- STATUS (10_state.md R31): BUSY bit 0, ERR bit 1, Z bit 2, OVR bit 3, ECODE bits 11:8. -/
def State.statusWord (s : State) : Word :=
  BitVec.ofNat 32 (s.busy.toNat + s.err.toNat * 2 ^ 1 + s.z.toNat * 2 ^ 2 + s.ovr.toNat * 2 ^ 3
    + s.ecode.toNat * 2 ^ 8)

/-- CFG (10_state.md R36): N bits 5:0, K bits 13:8, NK bits 21:16, CFGV bit 31. -/
def State.cfgWord (s : State) : Word :=
  BitVec.ofNat 32 (s.cfg.n.toNat + s.cfg.k.toNat * 2 ^ 8 + s.cfg.nk.toNat * 2 ^ 16
    + s.cfg.cfgv.toNat * 2 ^ 31)

/-- BMCTL (10_state.md R37): BM_L bits 6:0, BM_D bits 14:8, BM_B bit 16. -/
def State.bmctlWord (s : State) : Word :=
  BitVec.ofNat 32 (s.bm.l.toNat + s.bm.d.toNat * 2 ^ 8 + s.bm.b.toNat * 2 ^ 16)

/-- The committed value of a register of the map (20_memory.md R52 to R59). CTRL, CMD and unmapped offsets read
0. -/
def State.regValue (s : State) : HostReg → Word
  | .id => Config.idValue
  | .ctrl => 0
  | .status => s.statusWord
  | .cmd => 0
  | .errcmd => s.errcmd
  | .cfg => s.cfgWord
  | .bmctl => s.bmctlWord
  | .errcnt => BitVec.ofNat 32 s.errs.cnt.val
  | .freg i => BitVec.ofNat 32 s.f[i].val
  | .pdeg i => BitVec.ofNat 32 s.p[i].degReg.toNat
  | .wdeg w => BitVec.ofNat 32 (s.bm.workNo w).degReg.toNat
  | .errpos i => BitVec.ofNat 32 s.errs.pos[i].val
  | .errloc i => BitVec.ofNat 32 s.errs.loc[i].val
  | .errmag i => BitVec.ofNat 32 s.errs.mag[i].val
  | .pcoef r j => BitVec.ofNat 32 s.p[r].c[j].val
  | .wcoef w j => BitVec.ofNat 32 (s.bm.workNo w).c[j].val
  | .unmapped => 0

/-- The register reads exactly even while BUSY = 1: STATUS and ID (10_state.md R39); an unmapped offset is no
register and reads 0 always (20_memory.md R59; DEDUCED, log 4). -/
def HostReg.exactWhileBusy : HostReg → Bool
  | .id => true
  | .status => true
  | .unmapped => true
  | _ => false

/-- The host reads a word (20_memory.md R62): no side effect on the core. While BUSY = 1 a register other than
STATUS and ID returns an unspecified value (U1): a free value, a new one for each such read. -/
def State.hostRead (s : State) (addr : BitVec 16) : State :=
  let r := regOfAddr addr
  if s.busy && !r.exactWhileBusy then
    { s with busData := Config.busyRead s.draws, draws := s.draws + 1 }
  else { s with busData := s.regValue r }

/-- A write to CTRL (10_state.md R32): SOFT_RESET, bit 0, acts before CLR_ERR, bit 1. -/
def State.writeCtrl (s : State) (v : Word) : State :=
  if v.getLsbD 0 then s.beginReset
  else if v.getLsbD 1 then s.clearErr
  else s

/-- The host writes a word (20_memory.md R59, R62): only CMD and CTRL writes do anything. -/
def State.hostWrite (s : State) (addr : BitVec 16) (v : Word) : State :=
  match regOfAddr addr with
  | .cmd => s.issue v
  | .ctrl => s.writeCtrl v
  | _ => s

/-- One action of the host (20_memory.md R70); the reset input begins a reset (70_reset_and_hazards.md R260;
log 7). -/
def State.hostAct (s : State) : HostOp → State
  | .read addr => s.hostRead addr
  | .write addr v => s.hostWrite addr v
  | .resetInput => s.beginReset

end Sys2Proof.Machine
end

