-- ==== Sys2Proof/Machine/BerlekampMassey.lean ====
section
/-! DEFINITION. The Berlekamp-Massey solver (43_berlekamp_massey.md R190 to R194). -/

namespace Sys2Proof.Machine

/-- The working state BMINIT leaves for the syndrome polynomial `ws` (R190). -/
def bmInit (ws : Poly) : BmState :=
  { ws := ws, sig := Poly.one, om := Poly.one, tau := Poly.one, gam := Poly.zero
    d := 0, b := false, l := 0 }

/-- The coefficient of z^i in `1 + s` (R191). -/
def onePlusCoeff (ws : Poly) (i : Nat) : Elem := (if i = 0 then 1 else 0) + ws.coeff i

/-- The coefficient of z^j in `(1 + s) * sig`. -/
def keyCoeff (ws sig : Poly) (j : Nat) : Elem := convCoeff (onePlusCoeff ws) sig.coeff j

/-- The discrepancy Δ: the coefficient of z^(l+1) in `(1 + s) * σ_l` (R191). -/
def BmState.discrepancy (b : BmState) : Elem := keyCoeff b.ws b.sig (b.l.toNat + 1)

/-- The no-update rule applies: Δ = 0, or 2·D > l+1, or 2·D = l+1 with B = 0 (R191, R194). -/
def BmState.keeps (b : BmState) : Bool :=
  decide (b.discrepancy = 0) || decide (2 * b.d.toNat > b.l.toNat + 1)
    || (decide (2 * b.d.toNat = b.l.toNat + 1) && !b.b)

/-- `p - Δ·(z·q)`, the new σ (from σ, τ) and the new ω (from ω, γ) in every case (R191). -/
def bmCorrect (p : Poly) (delta : Elem) (q : Poly) : Poly := p.sub ((q.shiftUp 1).scale delta)

/-- One iteration, from `l` to `l + 1` (R191). Every right side is of the old working state. -/
def bmStep (b : BmState) : BmState :=
  let delta := b.discrepancy
  let sig' := bmCorrect b.sig delta b.tau
  let om' := bmCorrect b.om delta b.gam
  let l' := BitVec.ofNat 7 (b.l.toNat + 1)
  if b.keeps then
    { b with sig := sig', om := om', tau := b.tau.shiftUp 1, gam := b.gam.shiftUp 1, l := l' }
  else
    { b with
      sig := sig', om := om'
      tau := b.sig.scale (invElem delta), gam := b.om.scale (invElem delta)
      d := BitVec.ofNat 7 (b.l.toNat + 1 - b.d.toNat), b := !b.b, l := l' }

/-- `n` iterations. -/
def bmIterate : Nat → BmState → BmState
  | 0, b => b
  | n + 1, b => bmIterate n (bmStep b)

/-- BMINIT (R190): Z unchanged, no configuration needed. -/
def execBminit (a : PReg) (s : State) : Result := .next { s with bm := bmInit (s.readP a) }

/-- BMSTEP (R191): `CapacityExceeded` at BM_L = 127; Z unchanged. -/
def execBmstep (s : State) : Result :=
  if s.bm.l.toNat = 127 then .next (s.raise (encode .bmstep) .capacityExceeded)
  else .next { s with bm := bmStep s.bm }

/-- RSBM (R192): BMINIT with `P[a]`, then NK times BMSTEP, then `P[d] <- σ`, `P[c] <- ω`; Z unchanged. `d = c` is
`IllegalCommand` (30_encoding.md R80), before `InvalidParameters` (60_exceptions.md R233). -/
def execRsbm (d c a : PReg) (s : State) : Result :=
  if d = c then .next (s.raise (encode (.rsbm d c a)) .illegalCommand)
  else if s.cfg.cfgv then
    let b := bmIterate s.cfg.nk.toNat (bmInit (s.readP a))
    .next { s with bm := b, p := (s.p.set d b.sig).set c b.om }
  else .next (s.raise (encode (.rsbm d c a)) .invalidParameters)

/-- BMGET (R193): the working state is not changed. -/
def execBmget (d : PReg) (sel : WSel) (s : State) : Result := .next (s.putP d (s.bm.work sel))

end Sys2Proof.Machine
end

