-- ==== Sys2Proof/Machine/Field.lean ====
section
/-! DEFINITION. The meanings of the field unit's commands and NOP (40_field.md R100 to R111). A fault records the
command's own word, `encode` of the command (DEDUCED, log 13). -/

namespace Sys2Proof.Machine

/-- NOP: nothing (R100). -/
def execNop (s : State) : Result := .next s

/-- FLI (R101): `InvalidFieldValue` above 58. -/
def execFli (d : FReg) (imm : BitVec 14) (s : State) : Result :=
  match elemOfImm imm with
  | none => .next (s.raise (encode (.fli d imm)) .invalidFieldValue)
  | some v => .next (s.putF d v)

/-- FMOV (R102). -/
def execFmov (d a : FReg) (s : State) : Result := .next (s.putF d (s.readF a))

/-- FADD (R103). -/
def execFadd (d a b : FReg) (s : State) : Result := .next (s.putF d (s.readF a + s.readF b))

/-- FSUB (R104). -/
def execFsub (d a b : FReg) (s : State) : Result := .next (s.putF d (s.readF a - s.readF b))

/-- FNEG (R105). -/
def execFneg (d a : FReg) (s : State) : Result := .next (s.putF d (0 - s.readF a))

/-- FMUL (R106). -/
def execFmul (d a b : FReg) (s : State) : Result := .next (s.putF d (s.readF a * s.readF b))

/-- FDIV (R107): `NoInverse` for the divisor 0. -/
def execFdiv (d a b : FReg) (s : State) : Result :=
  if s.readF b = 0 then .next (s.raise (encode (.fdiv d a b)) .noInverse)
  else .next (s.putF d (s.readF a * invElem (s.readF b)))

/-- FINV (R108): `NoInverse` for 0. -/
def execFinv (d a : FReg) (s : State) : Result :=
  if s.readF a = 0 then .next (s.raise (encode (.finv d a)) .noInverse)
  else .next (s.putF d (invElem (s.readF a)))

/-- FPOW (R109): `NoInverse` for 0 to a negative power; 0^0 = 1. -/
def execFpow (d a : FReg) (imm : BitVec 14) (s : State) : Result :=
  let e := s14 imm
  if 0 ≤ e then .next (s.putF d (powElem (s.readF a) e.toNat))
  else if s.readF a = 0 then .next (s.raise (encode (.fpow d a imm)) .noInverse)
  else .next (s.putF d (invElem (powElem (s.readF a) (-e).toNat)))

/-- FPOWF (R110): `InvalidOperand`, always. -/
def execFpowf (d a b : FReg) (s : State) : Result :=
  .next (s.raise (encode (.fpowf d a b)) .invalidOperand)

/-- FEQ (R111): Z alone is written. -/
def execFeq (a b : FReg) (s : State) : Result :=
  .next { s with z := zOfElemEq (s.readF a) (s.readF b) }

end Sys2Proof.Machine
end

