-- ==== Sys2Proof/Machine/PolyUnit.lean ====
section
/-! DEFINITION. The meanings of the polynomial engine's commands (41_poly.md R130 to R145). Every source is read
in the state before the command (60_exceptions.md R236), so a destination may equal a source. -/

namespace Sys2Proof.Machine

/-- PCLR (R130). -/
def execPclr (d : PReg) (s : State) : Result := .next (s.putP d Poly.zero)

/-- PMOV (R131). -/
def execPmov (d a : PReg) (s : State) : Result := .next (s.putP d (s.readP a))

/-- Appending `v` at the low end of `P[d]`, for the command whose word is `w` (R133): `CapacityExceeded` when
`P[d]` is nonzero of degree 127. -/
def State.pushOnto (s : State) (w : Word) (d : PReg) (v : Elem) : State :=
  let q := s.readP d
  if !q.isZero && decide (q.deg = 127) then s.raise w .capacityExceeded else s.putP d (q.push v)

/-- PPUSH (R133). -/
def execPpush (d : PReg) (a : FReg) (s : State) : Result :=
  .next (s.pushOnto (encode (.ppush d a)) d (s.readF a))

/-- PPUSHI (R134): `InvalidFieldValue` is checked first, then as PPUSH. -/
def execPpushi (d : PReg) (imm : BitVec 14) (s : State) : Result :=
  match elemOfImm imm with
  | none => .next (s.raise (encode (.ppushi d imm)) .invalidFieldValue)
  | some v => .next (s.pushOnto (encode (.ppushi d imm)) d v)

/-- PSETC (R135): `CapacityExceeded` for a power above 127. -/
def execPsetc (d : PReg) (a : FReg) (imm : BitVec 14) (s : State) : Result :=
  if u14 imm > 127 then .next (s.raise (encode (.psetc d a imm)) .capacityExceeded)
  else .next (s.putP d ((s.readP d).setCoeff (u14 imm) (s.readF a)))

/-- PGETC (R136): a power above 127 reads 0. -/
def execPgetc (d : FReg) (a : PReg) (imm : BitVec 14) (s : State) : Result :=
  .next (s.putF d ((s.readP a).coeff (u14 imm)))

/-- PADD (R137). -/
def execPadd (d a b : PReg) (s : State) : Result := .next (s.putP d ((s.readP a).add (s.readP b)))

/-- PSUB (R138). -/
def execPsub (d a b : PReg) (s : State) : Result := .next (s.putP d ((s.readP a).sub (s.readP b)))

/-- PMUL (R139): `CapacityExceeded` when the degrees sum to more than 127. -/
def execPmul (d a b : PReg) (s : State) : Result :=
  if (s.readP a).deg + (s.readP b).deg > 127 then
    .next (s.raise (encode (.pmul d a b)) .capacityExceeded)
  else .next (s.putP d ((s.readP a).mul (s.readP b)))

/-- PSCALE (R140). -/
def execPscale (d a : PReg) (b : FReg) (s : State) : Result :=
  .next (s.putP d ((s.readP a).scale (s.readF b)))

/-- PSHL (R141): the zero polynomial shifts to zero whatever the count; otherwise `CapacityExceeded` when the
degree would pass 127. -/
def execPshl (d a : PReg) (imm : BitVec 14) (s : State) : Result :=
  let q := s.readP a
  if q.isZero then .next (s.putP d Poly.zero)
  else if q.deg + u14 imm > 127 then .next (s.raise (encode (.pshl d a imm)) .capacityExceeded)
  else .next (s.putP d (q.shiftUp (u14 imm)))

/-- PSHR (R142). -/
def execPshr (d a : PReg) (imm : BitVec 14) (s : State) : Result :=
  .next (s.putP d ((s.readP a).shiftDown (u14 imm)))

/-- PDIVMOD (R143): `P[d]` the quotient, `P[c]` the remainder, Z from the remainder. `d = c` is `IllegalCommand`
(30_encoding.md R80), which comes first (60_exceptions.md R233). -/
def execPdivmod (d c a b : PReg) (s : State) : Result :=
  if d = c then .next (s.raise (encode (.pdivmod d c a b)) .illegalCommand)
  else if (s.readP b).isZero then .next (s.raise (encode (.pdivmod d c a b)) .divisionByZero)
  else
    let qr := (s.readP a).divMod (s.readP b)
    .next { s with p := (s.p.set d qr.1).set c qr.2, z := zOfPoly qr.2 }

/-- PEVAL (R144). -/
def execPeval (d : FReg) (a : PReg) (b : FReg) (s : State) : Result :=
  .next (s.putF d ((s.readP a).eval (s.readF b)))

/-- PEQ (R145): Z alone is written. -/
def execPeq (a b : PReg) (s : State) : Result :=
  .next { s with z := zOfPolyEq (s.readP a) (s.readP b) }

end Sys2Proof.Machine
end

