-- ==== Sys2Proof/Machine/Roots.lean ====
section
/-! DEFINITION. The root finder, the Forney unit and the error polynomial (44_roots_forney.md R210 to R212). -/

namespace Sys2Proof.Machine

/-- The exponents `l` in 1..58, ascending, at which `sig` vanishes at `2^l` (R210). -/
def rootExponents (sig : Poly) : List Nat :=
  (List.range' 1 58).filter fun l => decide (sig.eval (pow2 l) = 0)

/-- The error list of a root search (R210): entry `i` of the i-th root `l` has position `58 - l` and location
`2^(58 - l)`; every later entry and every magnitude is 0. -/
def errListOf (ls : List Nat) : ErrList :=
  { cnt := Fin.ofNat 59 ls.length
    pos := Vector.ofFn fun i : Fin 58 =>
      match ls[i.val]? with
      | some l => Fin.ofNat 58 (58 - l)
      | none => 0
    loc := Vector.ofFn fun i : Fin 58 =>
      match ls[i.val]? with
      | some l => pow2 (58 - l)
      | none => 0
    mag := Vector.replicate 58 0 }

/-- RSROOT (R210): Z is 1 iff no root was found. -/
def execRsroot (a : PReg) (s : State) : Result :=
  let e := errListOf (rootExponents (s.readP a))
  .next { s with errs := e, z := zOfCount e.cnt }

/-- `Π (1 - ERRLOC[m]·xi)` over `m < n` other than `i` (R211). -/
def forneyProduct (loc : Vector Elem 58) (i : Fin 58) (xi : Elem) : Nat → Elem
  | 0 => 1
  | m + 1 =>
    let rest := forneyProduct loc i xi m
    if h : m < 58 then (if m = i.val then rest else rest * (1 - loc[m] * xi)) else rest

/-- The product of entry `i` over the whole list (R211). -/
def ErrList.product (e : ErrList) (i : Fin 58) : Elem :=
  forneyProduct e.loc i (invElem e.loc[i]) e.cnt.val

/-- Entry `i` needs the inverse of 0: of its product (R211), or of ERRLOC[i] itself, which 10_state.md R30
excludes (DEDUCED, log 11). -/
def ErrList.noInverseAt (e : ErrList) (i : Fin 58) : Bool :=
  decide (i.val < e.cnt.val) && (decide (e.loc[i] = 0) || decide (e.product i = 0))

/-- The magnitudes for the error evaluator `om` (R211): `ω(X_i^{-1})` times the inverse of the product, 0 from
ERRCNT up. -/
def ErrList.magnitudes (e : ErrList) (om : Poly) : Vector Elem 58 :=
  Vector.ofFn fun i : Fin 58 =>
    if i.val < e.cnt.val then om.eval (invElem e.loc[i]) * invElem (e.product i) else 0

/-- RSFORNEY (R211): only ERRMAG is written; Z unchanged; `NoInverse` guards the inverses. -/
def execRsforney (a : PReg) (s : State) : Result :=
  if (List.finRange 58).any s.errs.noInverseAt then
    .next (s.raise (encode (.rsforney a)) .noInverse)
  else .next { s with errs := { s.errs with mag := s.errs.magnitudes (s.readP a) } }

/-- The coefficient of x^j after the writes `E.c[ERRPOS[i]] <- ERRMAG[i]` for `i < n`, in that order (R212). -/
def errPolyCoeff (e : ErrList) (j : Nat) : Nat → Elem
  | 0 => 0
  | i + 1 =>
    if h : i < 58 then (if e.pos[i].val = j then e.mag[i] else errPolyCoeff e j i)
    else errPolyCoeff e j i

/-- The error polynomial E (R212). -/
def ErrList.poly (e : ErrList) : Poly := canon fun j => errPolyCoeff e j e.cnt.val

/-- RSEPOLY (R212). -/
def execRsepoly (d : PReg) (s : State) : Result := .next (s.putP d s.errs.poly)

end Sys2Proof.Machine
end

