-- ==== Sys2Proof/Machine/Syndrome.lean ====
section
/-! DEFINITION. The meanings of the configuration and syndrome commands (42_rs_config_syndrome.md R170, R171). -/

namespace Sys2Proof.Machine

/-- RSCFG (R170): `InvalidParameters` unless `1 <= k < n <= 58`; Z unchanged. -/
def execRscfg (n k : BitVec 7) (s : State) : Result :=
  if legalConfig n k then
    .next { s with cfg :=
      { n := BitVec.ofNat 6 n.toNat
        k := BitVec.ofNat 6 k.toNat
        nk := BitVec.ofNat 6 (n.toNat - k.toNat)
        cfgv := true } }
  else .next (s.raise (encode (.rscfg n k)) .invalidParameters)

/-- The syndrome polynomial of `r` (R171): `s_l = r(2^l)` at power `l` for `l` in 1..NK, 0 elsewhere. -/
def syndromes (r : Poly) (nk : Nat) : Poly :=
  canon fun l => if 1 ≤ l ∧ l ≤ nk then r.eval (pow2 l) else 0

/-- RSSYN (R171): `InvalidParameters` without a configuration. -/
def execRssyn (d a : PReg) (s : State) : Result :=
  if s.cfg.cfgv then .next (s.putP d (syndromes (s.readP a) s.cfg.nk.toNat))
  else .next (s.raise (encode (.rssyn d a)) .invalidParameters)

end Sys2Proof.Machine
end

