-- ==== Sys2Proof/Machine/Dispatch.lean ====
section
/-! DEFINITION. The meaning of every command: one arm per constructor of Instr, each one direct call. -/

namespace Sys2Proof.Machine

def exec (i : Instr) (s : State) : Host.Outcome State Fault Refusal :=
  match i with
  | .nop => Sys2Proof.Machine.execNop s
  | .fli d imm => Sys2Proof.Machine.execFli d imm s
  | .fmov d a => Sys2Proof.Machine.execFmov d a s
  | .fadd d a b => Sys2Proof.Machine.execFadd d a b s
  | .fsub d a b => Sys2Proof.Machine.execFsub d a b s
  | .fneg d a => Sys2Proof.Machine.execFneg d a s
  | .fmul d a b => Sys2Proof.Machine.execFmul d a b s
  | .fdiv d a b => Sys2Proof.Machine.execFdiv d a b s
  | .finv d a => Sys2Proof.Machine.execFinv d a s
  | .fpow d a imm => Sys2Proof.Machine.execFpow d a imm s
  | .fpowf d a b => Sys2Proof.Machine.execFpowf d a b s
  | .feq a b => Sys2Proof.Machine.execFeq a b s
  | .pclr d => Sys2Proof.Machine.execPclr d s
  | .pmov d a => Sys2Proof.Machine.execPmov d a s
  | .ppush d a => Sys2Proof.Machine.execPpush d a s
  | .ppushi d imm => Sys2Proof.Machine.execPpushi d imm s
  | .psetc d a imm => Sys2Proof.Machine.execPsetc d a imm s
  | .pgetc d a imm => Sys2Proof.Machine.execPgetc d a imm s
  | .padd d a b => Sys2Proof.Machine.execPadd d a b s
  | .psub d a b => Sys2Proof.Machine.execPsub d a b s
  | .pmul d a b => Sys2Proof.Machine.execPmul d a b s
  | .pscale d a b => Sys2Proof.Machine.execPscale d a b s
  | .pshl d a imm => Sys2Proof.Machine.execPshl d a imm s
  | .pshr d a imm => Sys2Proof.Machine.execPshr d a imm s
  | .pdivmod d c a b => Sys2Proof.Machine.execPdivmod d c a b s
  | .peval d a b => Sys2Proof.Machine.execPeval d a b s
  | .peq a b => Sys2Proof.Machine.execPeq a b s
  | .rscfg n k => Sys2Proof.Machine.execRscfg n k s
  | .rssyn d a => Sys2Proof.Machine.execRssyn d a s
  | .bminit a => Sys2Proof.Machine.execBminit a s
  | .bmstep => Sys2Proof.Machine.execBmstep s
  | .rsbm d c a => Sys2Proof.Machine.execRsbm d c a s
  | .bmget d sel => Sys2Proof.Machine.execBmget d sel s
  | .rsroot a => Sys2Proof.Machine.execRsroot a s
  | .rsforney a => Sys2Proof.Machine.execRsforney a s
  | .rsepoly d => Sys2Proof.Machine.execRsepoly d s

end Sys2Proof.Machine
end

