-- ==== Sys2Proof/Machine/Run.lean ====
section
/-! DEFINITION. What one event does: the core's completion of a command or a reset, and the host's action
(20_memory.md R56, R65). -/

namespace Sys2Proof.Machine

/-- The core executes the accepted word `w` and BUSY falls (20_memory.md R56): a word that does not decode raises
`IllegalCommand` (30_encoding.md R80). -/
def runWord (w : Word) (s : State) : Host.Outcome State Fault Refusal :=
  match decode w with
  | .error _ => .next (s.raise w .illegalCommand)
  | .ok i =>
    match exec i s with
    | .next t => .next t.retire
    | .fault r => .fault r
    | .refused r => .refused r

/-- The core completes what is in progress; idling changes nothing (60_exceptions.md R250). -/
def coreStep (s : State) : Host.Outcome State Fault Refusal :=
  match s.activity with
  | .idle => .next s
  | .command w => runWord w s
  | .resetting => .next s.finishReset

/-- One event (log 3): the host's action is one step, the completion of a command or of a reset is one indivisible
step (20_memory.md R65). -/
def runEvent (s : State) : Event → Host.Outcome State Fault Refusal
  | .core => coreStep s
  | .host op => .next (s.hostAct op)

end Sys2Proof.Machine
end

