-- ==== Sys2Proof/Machine/Step.lean ====
section
/-! DEFINITION. One step: the next event of the agenda (log 3). The host's action is one step; the completion of a
command, or of a reset, is one indivisible step (20_memory.md R56, R65). -/

namespace Sys2Proof.Machine

/-- One step. With no event left the host is silent and the core moves, so whatever is in progress completes
(70_reset_and_hazards.md R272). -/
def step (s : State) : Host.Outcome State Fault Refusal :=
  match s.agenda with
  | [] => coreStep s
  | ev :: rest => runEvent { s with agenda := rest } ev

/-- `s` with the command word `w` accepted from CMD and its completion the next event, so that the next step runs
exactly it (log 14). The core has no memory to fetch from (10_state.md R25). -/
def State.withFetchWord (s : State) (nbits w : Nat) : State :=
  { s with activity := .command (BitVec.ofNat 32 (w % 2 ^ nbits)), agenda := .core :: s.agenda }

end Sys2Proof.Machine
end

