-- ==== Sys2Proof/Machine/HostRun.lean ====
section
/-! DEFINITION. A run (70_reset_and_hazards.md R274): a reset, then a finite sequence of the host's CMD and CTRL
writes, each CMD write made after BUSY = 0 was observed, up to a read of BUSY = 0 after the last write. Reads, and the
core's completions, stand anywhere between (log 16). -/

namespace Sys2Proof.Machine

/-- What matters of the host's side of a run so far. -/
structure RunView where
  /-- BUSY = 0 was read since the last CMD write and the last reset: a CMD write may be made. -/
  mayIssue : Bool
  /-- BUSY = 0 was read since the last write of any kind: the run may end here. -/
  done : Bool
  /-- CLR_ERR or SOFT_RESET was written after the reset the run starts with. -/
  cleared : Bool
deriving DecidableEq, Repr

/-- The host's side when the reset begins: nothing observed, nothing written. -/
def RunView.start : RunView := { mayIssue := false, done := false, cleared := false }

/-- The host has read `data` from register `r`: STATUS with bit 0 clear is BUSY = 0 observed (10_state.md R31). -/
def RunView.afterRead (v : RunView) (r : HostReg) (data : Word) : RunView :=
  if r = .status ∧ data.getLsbD 0 = false then { v with mayIssue := true, done := true } else v

/-- The host has written `data` to register `r`: `none` where a run has no such write, which is a CMD write before
BUSY = 0 was observed, or a write to neither CMD nor CTRL. -/
def RunView.afterWrite (v : RunView) (r : HostReg) (data : Word) : Option RunView :=
  match r with
  | .cmd => if v.mayIssue then some { v with mayIssue := false, done := false } else none
  | .ctrl => some
      { mayIssue := v.mayIssue && !data.getLsbD 0
        done := false
        cleared := v.cleared || data.getLsbD 0 || data.getLsbD 1 }
  | _ => none

/-- The event has led to the state `t`. Only its first reset is a run's reset input. -/
def RunView.after (v : RunView) (t : State) : Event → Option RunView
  | .core => some v
  | .host (.read addr) => some (v.afterRead (regOfAddr addr) t.busData)
  | .host (.write addr data) => v.afterWrite (regOfAddr addr) data
  | .host .resetInput => none

/-- The steps of the given events, one after the other, as long as they are a run's. -/
def runOn : RunView → State → List Event → Option (RunView × State)
  | v, s, [] => some (v, s)
  | v, s, ev :: evs =>
    match step { s with agenda := [ev] } with
    | .next t =>
      match v.after t ev with
      | some v' => runOn v' t evs
      | none => none
    | .fault _ => none
    | .refused _ => none

/-- The host's action begins a reset: the reset input, or SOFT_RESET (70_reset_and_hazards.md R260, R261). -/
def HostOp.isReset : HostOp → Bool
  | .resetInput => true
  | .write addr data => decide (regOfAddr addr = .ctrl) && data.getLsbD 0
  | .read _ => false

/-- A run from any state `s`: the reset `op` begins, and the events `evs` follow, the completion of that reset among
them. The answer is the host's side and the state after them, `none` where they are no run. -/
def hostRun (s : State) (op : HostOp) (evs : List Event) : Option (RunView × State) :=
  if op.isReset then
    match step { s with agenda := [.host op] } with
    | .next t => runOn RunView.start t evs
    | .fault _ => none
    | .refused _ => none
  else none

/-- The words the host writes to CMD, in order. -/
def issuedWords : List Event → List Word
  | [] => []
  | .host (.write addr data) :: evs =>
    if regOfAddr addr = .cmd then data :: issuedWords evs else issuedWords evs
  | .host (.read _) :: evs => issuedWords evs
  | .host .resetInput :: evs => issuedWords evs
  | .core :: evs => issuedWords evs

end Sys2Proof.Machine
end

