-- ==== Sys2Proof/Safety.lean ====
section
/-! DEFINITION. The terms the claims use: the invariant of the machine (10_state.md R22, R26, R28 to R31, R35), how
a run ends (70_reset_and_hazards.md R274), and what it means that a command changes one result and nothing else
(10_state.md R23, R24; 60_exceptions.md R236). -/

namespace Sys2Proof.Machine

/-- Canonical form (10_state.md R22): no nonzero cell above `DEG`, and the cell at `DEG` is nonzero unless the
register holds the zero polynomial, whose `DEG` is 0. -/
def Poly.Canonical (q : Poly) : Prop :=
  (∀ j, q.degReg.toNat < j → q.coeff j = 0) ∧
  (q.coeff q.degReg.toNat ≠ 0 ∨ (q.degReg = 0 ∧ q.coeff 0 = 0))

/-- Every polynomial register and every working polynomial is canonical. -/
def State.PolysCanonical (s : State) : Prop :=
  (∀ i : PReg, s.p[i].Canonical) ∧ ∀ w : WSel, (s.bm.work w).Canonical

/-- The configuration invariant (10_state.md R26). -/
def RsConfig.Legal (g : RsConfig) : Prop :=
  g.cfgv = true →
    1 ≤ g.k.toNat ∧ g.k.toNat < g.n.toNat ∧ g.n.toNat ≤ 58 ∧ g.nk.toNat = g.n.toNat - g.k.toNat

/-- The working-state bounds (10_state.md R28). -/
def BmState.Bounded (b : BmState) : Prop :=
  b.sig.coeff 0 = 1 ∧ b.sig.deg ≤ b.l.toNat ∧ b.om.deg ≤ b.l.toNat ∧ b.tau.deg ≤ b.l.toNat ∧
  b.gam.deg ≤ b.l.toNat ∧ b.tau.isZero = false ∧ b.d.toNat ≤ b.l.toNat

/-- The error-list invariants (10_state.md R29, R30): entries from ERRCNT up are 0; below it each location is
2 to its position, and the positions strictly decrease. -/
def ErrList.Sound (e : ErrList) : Prop :=
  (∀ i : Fin 58, e.cnt.val ≤ i.val → e.pos[i] = 0 ∧ e.loc[i] = 0 ∧ e.mag[i] = 0) ∧
  (∀ i : Fin 58, i.val < e.cnt.val → e.loc[i] = pow2 e.pos[i].val) ∧
  (∀ i j : Fin 58, i < j → j.val < e.cnt.val → e.pos[j] < e.pos[i])

/-- The fault record (10_state.md R31, R35; 60_exceptions.md R230): empty while ERR = 0, a code 1..7 while
ERR = 1; and no command is in flight while ERR = 1 (60_exceptions.md R237). -/
def State.RecordSound (s : State) : Prop :=
  (s.err = false → s.ecode = 0 ∧ s.errcmd = 0) ∧
  (s.err = true → 1 ≤ s.ecode.toNat ∧ s.ecode.toNat ≤ 7) ∧
  (∀ w, s.activity = .command w → s.err = false)

/-- The invariant of the machine. -/
def State.Inv (s : State) : Prop :=
  s.PolysCanonical ∧ s.cfg.Legal ∧ s.bm.Bounded ∧ s.errs.Sound ∧ s.RecordSound

/-- An end state in which every command took effect: BUSY = 0, ERR = 0 and OVR = 0 (70_reset_and_hazards.md
R274). -/
def State.ranClean (s : State) : Bool := !s.busy && !s.err && !s.ovr

/-- The run of the reset `op` and the events `evs` from `s` has ended, with the end state `t` (R274). -/
def RunEnds (s : State) (op : HostOp) (evs : List Event) (t : State) : Prop :=
  ∃ v, hostRun s op evs = some (v, t) ∧ v.done = true

/-- The premise of a claim about a run's results: the run has ended in `t` with ERR = 0 and OVR = 0, and neither
CLR_ERR nor SOFT_RESET was written during it (R274). -/
def CleanRun (s : State) (op : HostOp) (evs : List Event) (t : State) : Prop :=
  ∃ v, hostRun s op evs = some (v, t) ∧ v.done = true ∧ v.cleared = false ∧ t.ranClean = true

/-- The run has ended in `t` with ERR = 1 or OVR = 1: some command did not take effect (R274). -/
def FaultedRun (s : State) (op : HostOp) (evs : List Event) (t : State) : Prop :=
  RunEnds s op evs t ∧ (t.err = true ∨ t.ovr = true)

/-- The result of a run that ended in `t`: its state read back through the register map (R274). -/
def runResult (t : State) (addr : BitVec 16) : Word := t.regValue (regOfAddr addr)

/-- From `s` to `t` field register `d` receives `v`, Z says whether `v` is 0, and nothing else changes. -/
def WritesF (s t : State) (d : FReg) (v : Elem) : Prop :=
  t = { s with f := t.f, z := t.z } ∧ t.f[d] = v ∧ (∀ r, r ≠ d → t.f[r] = s.f[r]) ∧
  (t.z = true ↔ v = 0)

/-- From `s` to `t` polynomial register `d` receives a canonical polynomial with the coefficients `coef` at the
powers 0..127, Z says whether they are all 0, and nothing else changes. -/
def WritesP (s t : State) (d : PReg) (coef : Nat → Elem) : Prop :=
  t = { s with p := t.p, z := t.z } ∧ t.p[d].Canonical ∧ (∀ j, j < 128 → t.p[d].coeff j = coef j) ∧
  (∀ r, r ≠ d → t.p[r] = s.p[r]) ∧ (t.z = true ↔ ∀ j, j < 128 → coef j = 0)

/-- From `s` to `t` polynomial register `d` receives exactly the polynomial `q`, Z says whether it is zero, and
nothing else changes. -/
def CopiesP (s t : State) (d : PReg) (q : Poly) : Prop :=
  t = { s with p := t.p, z := t.z } ∧ t.p[d] = q ∧ (∀ r, r ≠ d → t.p[r] = s.p[r]) ∧
  (t.z = true ↔ ∀ j, j < 128 → q.coeff j = 0)

/-- From `s` to `t` Z alone changes, and says whether `P` holds. -/
def WritesZ (s t : State) (P : Prop) : Prop := t = { s with z := t.z } ∧ (t.z = true ↔ P)

/-- From `s` to `t` the fault of code `e` is recorded for the word `w` and BUSY falls; nothing else changes
(60_exceptions.md R235, R236). -/
def RecordsFault (s t : State) (w : Word) (e : BitVec 4) : Prop :=
  t = { s with err := true, ecode := e, errcmd := w, activity := .idle }

/-- Several commands one after the other, each on the state the one before left. -/
def runAll : List Instr → State → Result
  | [], s => .next s
  | i :: is, s =>
    match exec i s with
    | .next t => runAll is t
    | .fault r => .fault r
    | .refused r => .refused r

/-- It is the core's turn at `s`: the next event is the core's, and `rest` follows; with no event left the core
moves too. -/
def CoreTurn (s : State) (rest : List Event) : Prop :=
  s.agenda = .core :: rest ∨ (s.agenda = [] ∧ rest = [])

/-- The coefficients of the generator polynomial, `(x - 2^1)·…·(x - 2^n)` (42_rs_config_syndrome.md R173), built as
the rule builds it: one factor after the other. -/
def genCoeff : Nat → Nat → Elem
  | 0, j => if j = 0 then 1 else 0
  | i + 1, j => (if j = 0 then 0 else genCoeff i (j - 1)) - pow2 (i + 1) * genCoeff i j

/-- The word of the command has opcode `op`, whose format is `fmt` (30_encoding.md R83, R86), and decodes to the
command. -/
def HasEncoding (i : Instr) (op : Nat) (fmt : Format) : Prop :=
  formatOf op = some fmt ∧ bits (encode i) 31 26 = op ∧ decode (encode i) = .ok i

/-- The reserved mask of an opcode's format, `none` for a reserved opcode: the column "reserved mask" of
30_encoding.md R83 with the opcodes of R86. -/
def reservedMask : Nat → Option Word
  | 0x00 | 0x23 => some 0x03FFFFFF
  | 0x10 | 0x28 => some 0x003FFFFF
  | 0x22 | 0x26 | 0x27 => some 0x03C3FFFF
  | 0x02 | 0x05 | 0x08 | 0x11 | 0x12 | 0x21 => some 0x0003FFFF
  | 0x03 | 0x04 | 0x06 | 0x07 | 0x0A | 0x16 | 0x17 | 0x18 | 0x19 | 0x1D => some 0x00003FFF
  | 0x0B | 0x1E => some 0x03C03FFF
  | 0x01 | 0x13 | 0x25 => some 0x003FC000
  | 0x09 | 0x14 | 0x15 | 0x1A | 0x1B => some 0x0003C000
  | 0x1C => some 0x000003FF
  | 0x24 => some 0x0003C3FF
  | 0x20 => some 0x03FFC000
  | _ => none

/-- The words that raise `IllegalCommand`, by the four conditions of 30_encoding.md R80, written with the masks. -/
def IllegalWord (w : Word) : Prop :=
  reservedMask (w >>> 26).toNat = none ∨
  (∃ m, reservedMask (w >>> 26).toNat = some m ∧ w &&& m ≠ 0) ∨
  ((w >>> 26).toNat = 0x25 ∧ (w &&& 0x3FFF).toNat > 4) ∨
  (((w >>> 26).toNat = 0x1C ∨ (w >>> 26).toNat = 0x24) ∧
    (w >>> 22 &&& (0xF : Word)) = (w >>> 10 &&& (0xF : Word)))

/-- The conditions of 60_exceptions.md R231, the complete list of what raises `CapacityExceeded`; the faults of
other codes that come first (R233) are excluded in each. -/
def capacityExceeded (i : Instr) (s : State) : Prop :=
  match i with
  | .ppush d _ => s.p[d].coeff 127 ≠ 0
  | .ppushi d imm => imm.toNat ≤ 58 ∧ s.p[d].coeff 127 ≠ 0
  | .psetc _ _ imm => imm.toNat > 127
  | .pmul _ a b => s.p[a].deg + s.p[b].deg > 127
  | .pshl _ a imm => (∃ j, s.p[a].coeff j ≠ 0) ∧ s.p[a].deg + imm.toNat > 127
  | .bmstep => s.bm.l.toNat = 127
  | _ => False

/-- The field register a command may write (10_state.md R23). -/
def destF : Instr → Option FReg
  | .fli d _ | .fmov d _ | .fadd d _ _ | .fsub d _ _ | .fneg d _ | .fmul d _ _ | .fdiv d _ _
  | .finv d _ | .fpow d _ _ | .pgetc d _ _ | .peval d _ _ => some d
  | _ => none

/-- The polynomial registers a command may write (10_state.md R23). -/
def destP : Instr → List PReg
  | .pclr d | .pmov d _ | .ppush d _ | .ppushi d _ | .psetc d _ _ | .padd d _ _ | .psub d _ _
  | .pmul d _ _ | .pscale d _ _ | .pshl d _ _ | .pshr d _ _ | .rssyn d _ | .bmget d _
  | .rsepoly d => [d]
  | .pdivmod d c _ _ | .rsbm d c _ => [d, c]
  | _ => []

/-- The commands that leave Z unchanged even when they complete (10_state.md R24). -/
def keepsZ : Instr → Bool
  | .nop | .rscfg _ _ | .bminit _ | .bmstep | .rsbm _ _ _ | .rsforney _ => true
  | _ => false

/-- The commands that may write the Berlekamp-Massey working state (10_state.md R23). -/
def writesBm : Instr → Bool
  | .bminit _ | .bmstep | .rsbm _ _ _ => true
  | _ => false

end Sys2Proof.Machine
end

