-- ==== Sys2Proof/Certificates/Slice0/Obligations.lean ====
section
/-! DEFINITION. The statements for the provers. Each docstring names the rule of spec/ it formalises. `WritesF`,
`WritesP`, `CopiesP`, `WritesZ` and `RecordsFault` (Safety.lean) say the result of a command and that nothing else
changes. Which of the host and the core acts next is plain data of the model, `State.agenda` (DESIGN CHOICE, log 3); a
statement about a step holds for every agenda that gives the actor it names the next turn. -/

open Sys2Proof Sys2Proof.Machine

/-! ## Encoding -/

/-- Decoding the word of a well-formed command gives it back, for every command and every operand
(30_encoding.md R80, R82, R83, R85, R86). -/
def Obligations.DecodesEveryEncodedCommand : Prop :=
  ∀ i : Instr, i.wellFormed = true → decode (encode i) = .ok i

/-- Encoding what a word decodes to gives the word back: no two words name one command, and no bit is dropped
(30_encoding.md R80, R83, R88). -/
def Obligations.EncodesEveryDecodedWord : Prop :=
  ∀ (w : Word) (i : Instr), decode w = .ok i → i.wellFormed = true ∧ encode i = w

/-- Decode is total: a word is refused exactly under the four conditions of 30_encoding.md R80, here with R83's
masks, and every other word is one command. -/
def Obligations.RefusesExactlyTheIllegalWords : Prop :=
  ∀ w : Word, ((∃ e, decode w = .error e) ↔ IllegalWord w) ∧
    (¬ IllegalWord w → ∃ i, decode w = .ok i)

/-- An illegal word, when the core takes it, raises IllegalCommand (code 7) and has no other effect
(30_encoding.md R87). -/
def Obligations.IllegalWordsRaiseIllegalCommand : Prop :=
  ∀ (s : State) (w : Word) (rest : List Event), IllegalWord w → s.activity = .command w →
    CoreTurn s rest →
    step s = .next { s with
      agenda := rest, err := true, ecode := 7, errcmd := w, activity := .idle }

/-- Words of 40_field.md to 44_roots_forney.md, one for each family, decode to the commands they are examples of. -/
def Obligations.SampleWordsDecode : Prop :=
  decode 0x0CC48000 = .ok (.fadd 3 1 2) ∧ decode 0x24C43FFF = .ok (.fpow 3 1 16383) ∧
  decode 0x70804C00 = .ok (.pdivmod 2 3 0 1) ∧ decode 0x80001D2E = .ok (.rscfg 58 46) ∧
  decode 0x84400000 = .ok (.rssyn 1 0) ∧ decode 0x90840C00 = .ok (.rsbm 2 3 1) ∧
  decode 0x95400003 = .ok (.bmget 5 .tau) ∧ decode 0x98080000 = .ok (.rsroot 2) ∧
  decode 0xA1000000 = .ok (.rsepoly 4)

/-! ## The step, the host protocol, faults and reset -/

/-- When the word in flight decodes to `i` and it is the core's turn (the model's agenda, log 3), the step is `exec i`
and then BUSY falls (20_memory.md R56, R65). -/
def Obligations.StepRunsTheDecodedCommand : Prop :=
  ∀ (s : State) (w : Word) (i : Instr) (rest : List Event), decode w = .ok i →
    s.activity = .command w → CoreTurn s rest →
    step s = match exec i { s with agenda := rest } with
      | .next t => .next { t with activity := .idle }
      | .fault r => .fault r
      | .refused r => .refused r

/-- Every step answers a next state: nothing stops the machine. -/
def Obligations.EveryStepAnswersNext : Prop := ∀ s : State, ∃ t, step s = .next t

/-- The CMD protocol (20_memory.md R56): a word written while BUSY = 1 or ERR = 1 only sets OVR; otherwise it is in
flight; when the core's turn comes it is executed as one step, or its decode fault recorded, and BUSY falls. -/
def Obligations.CmdWritesFollowTheProtocol : Prop :=
  (∀ (s : State) (addr : BitVec 16) (w : Word) (rest : List Event), addr.toNat / 4 = 3 →
    s.agenda = .host (.write addr w) :: rest →
    ((s.activity ≠ .idle ∨ s.err = true) → step s = .next { s with agenda := rest, ovr := true }) ∧
    (s.activity = .idle → s.err = false →
      step s = .next { s with agenda := rest, activity := .command w })) ∧
  (∀ (s : State) (w : Word) (rest : List Event), s.activity = .command w → CoreTurn s rest →
    ∃ t, step s = .next t ∧ t.activity = .idle ∧ t.agenda = rest ∧ t.ovr = s.ovr ∧
      (∀ i, decode w = .ok i → ∃ u, exec i { s with agenda := rest } = .next u ∧
        t = { u with activity := .idle }) ∧
      (∀ e, decode w = .error e → RecordsFault { s with agenda := rest } t w 7))

/-- CTRL (10_state.md R32): bit 0 begins a reset, and a command in flight is gone; with bit 0 clear, bit 1 clears
ERR, ECODE, OVR and ERRCMD and nothing else, whatever is in flight; the other bits are ignored; CTRL reads 0. Two
parts are the model's choice: when a reset begins every field but BUSY keeps its value until the reset completes
(log 6), and the 0 is claimed while BUSY = 0 only (93_implementation_defined.md U1, log 4). -/
def Obligations.CtrlWritesResetOrClear : Prop :=
  ∀ (s : State) (addr : BitVec 16) (v : Word) (rest : List Event), addr.toNat / 4 = 1 →
    s.agenda = .host (.write addr v) :: rest →
    (v.getLsbD 0 = true → step s = .next { s with agenda := rest, activity := .resetting }) ∧
    (v.getLsbD 0 = false → v.getLsbD 1 = true → step s = .next { s with
      agenda := rest, err := false, ecode := 0, ovr := false, errcmd := 0 }) ∧
    (v.getLsbD 0 = false → v.getLsbD 1 = false → step s = .next { s with agenda := rest }) ∧
    (s.activity = .idle → (s.hostRead addr).busData = 0)

/-- A soft reset, like the reset input, from any state, a command in flight or not: after its completion the state
is that of 10_state.md R40, and the ID register reads as before (70_reset_and_hazards.md R261). The model's own
`busData` and `draws` are no part of it (log 5). -/
def Obligations.ResetsReachTheResetState : Prop :=
  ∀ (s : State) (op : HostOp),
    (op = .resetInput ∨ ∃ addr v, op = .write addr v ∧ addr.toNat / 4 = 1 ∧ v.getLsbD 0 = true) →
    ∃ s1, step { s with agenda := [.host op] } = .next s1 ∧ s1.activity = .resetting ∧
      (∃ s2, step s1 = .next s2 ∧
        s2 = { State.reset with busData := s2.busData, draws := s2.draws }) ∧
      s1.regValue .id = 0x50463539 ∧ State.reset.regValue .id = 0x50463539

/-- The state after reset (10_state.md R40); its Berlekamp-Massey state is the one BMINIT gives for the zero
polynomial, so BMINIT changes nothing there. -/
def Obligations.ResetValuesAreTheSpecs : Prop :=
  (∀ i : FReg, State.reset.f[i] = 0) ∧
  (∀ i : PReg, (State.reset.p[i].degReg = 0) ∧ ∀ j, State.reset.p[i].coeff j = 0) ∧
  State.reset.z = false ∧
  State.reset.cfg.n = 0 ∧ State.reset.cfg.k = 0 ∧ State.reset.cfg.nk = 0 ∧
  State.reset.cfg.cfgv = false ∧
  (∀ j, State.reset.bm.ws.coeff j = 0 ∧ State.reset.bm.gam.coeff j = 0 ∧
    State.reset.bm.sig.coeff j = (if j = 0 then 1 else 0) ∧
    State.reset.bm.om.coeff j = (if j = 0 then 1 else 0) ∧
    State.reset.bm.tau.coeff j = (if j = 0 then 1 else 0)) ∧
  (∀ w : WSel, (State.reset.bm.work w).degReg = 0) ∧
  State.reset.bm.d = 0 ∧ State.reset.bm.b = false ∧ State.reset.bm.l = 0 ∧
  State.reset.errs.cnt.val = 0 ∧
  (∀ i : Fin 58, State.reset.errs.pos[i] = 0 ∧ State.reset.errs.loc[i] = 0 ∧
    State.reset.errs.mag[i] = 0) ∧
  State.reset.err = false ∧ State.reset.ecode = 0 ∧ State.reset.ovr = false ∧
  State.reset.errcmd = 0 ∧ State.reset.activity = .idle ∧
  (∀ a : PReg, exec (.bminit a) State.reset = .next State.reset)

/-- The reset state has the invariant. -/
def Obligations.ResetHasTheInvariant : Prop := State.reset.Inv

/-- Every step keeps the invariant, from every state that has it: canonical polynomials (10_state.md R22), a legal
configuration (R26), the Berlekamp-Massey bounds (R28), a sound error list (R29, R30) and a sound fault record
(R31, R35). -/
def Obligations.EveryStepKeepsTheInvariant : Prop :=
  ∀ s t : State, s.Inv → step s = .next t → t.Inv

/-- Faults are precise (60_exceptions.md R235): a command whose completion sets ERR writes ERR, ECODE (a code 1..7),
ERRCMD (its own word) and BUSY, and nothing else. -/
def Obligations.FaultsArePrecise : Prop :=
  ∀ (s t : State) (w : Word) (rest : List Event), s.err = false → s.activity = .command w →
    CoreTurn s rest → step s = .next t → t.err = true →
    ∃ e : BitVec 4, 1 ≤ e.toNat ∧ e.toNat ≤ 7 ∧
      t = { s with agenda := rest, err := true, ecode := e, errcmd := w, activity := .idle }

/-- While ERR = 1 the fault is sticky (60_exceptions.md R237): every CMD write only sets OVR; no step changes the
recorded code or word while ERR stays 1; and ERR falls only by CTRL.CLR_ERR or by a reset that completes (10_state.md
R31, R40; 60_exceptions.md R238). That ERR falls when a reset completes, and not when it begins, is the model's choice
(log 6). The premise, an invariant of the machine, says that no command is in flight. -/
def Obligations.FaultsAreSticky : Prop :=
  ∀ s t : State, s.RecordSound → s.err = true → step s = .next t →
    (∀ addr w rest, s.agenda = .host (.write addr w) :: rest → addr.toNat / 4 = 3 →
      t = { s with agenda := rest, ovr := true }) ∧
    (t.err = true → t.ecode = s.ecode ∧ t.errcmd = s.errcmd) ∧
    (t.err = false →
      (∃ addr v rest, s.agenda = .host (.write addr v) :: rest ∧ addr.toNat / 4 = 1 ∧
        v.getLsbD 0 = false ∧ v.getLsbD 1 = true) ∨
      (s.activity = .resetting ∧ ∃ rest, CoreTurn s rest))

/-- Fault return (60_exceptions.md R238): CLR_ERR clears ERR, ECODE, OVR and ERRCMD and restores nothing, and the
next CMD write is accepted and executes normally. A soft reset clears the fault too. -/
def Obligations.ClearErrReturnsFromTheFault : Prop :=
  ∀ (s : State) (a1 a2 : BitVec 16) (v w : Word) (i : Instr), a1.toNat / 4 = 1 →
    a2.toNat / 4 = 3 → v.getLsbD 0 = false → v.getLsbD 1 = true → s.activity = .idle →
    decode w = .ok i → s.agenda = [.host (.write a1 v), .host (.write a2 w)] →
    ∃ s1 s2 u, step s = .next s1 ∧
      s1 = { s with agenda := s1.agenda, err := false, ecode := 0, ovr := false, errcmd := 0 } ∧
      step s1 = .next s2 ∧ s2 = { s1 with agenda := [], activity := .command w } ∧
      exec i s2 = .next u ∧ step s2 = .next { u with activity := .idle } ∧
      ∃ r1 r2, step { s with agenda := [.host (.write a1 1)] } = .next r1 ∧ step r1 = .next r2 ∧
        r2.err = false ∧ r2.ecode = 0 ∧ r2.ovr = false ∧ r2.errcmd = 0

/-- An idle core whose host is silent stays as it is (60_exceptions.md R250). That an empty agenda is a silent host is
the model's choice (log 3). -/
def Obligations.IdlingChangesNothing : Prop :=
  ∀ s : State, s.activity = .idle → s.agenda = [] → step s = .next s

/-! ## The host register map -/

/-- ID reads the constant at any time, BUSY or not, and ignores writes (10_state.md R33). -/
def Obligations.IdReadsTheConstant : Prop :=
  ∀ (s : State) (addr : BitVec 16) (v : Word), addr.toNat / 4 = 0 →
    (s.hostRead addr).busData = 0x50463539 ∧ s.hostWrite addr v = s

/-- A STATUS read is exact at any time, BUSY or not, field by field (10_state.md R31, R39). -/
def Obligations.StatusReadsItsFields : Prop :=
  ∀ (s : State) (addr : BitVec 16), addr.toNat / 4 = 2 →
    (((s.hostRead addr).busData.getLsbD 0 = true) ↔ s.activity ≠ .idle) ∧
    (s.hostRead addr).busData.getLsbD 1 = s.err ∧ (s.hostRead addr).busData.getLsbD 2 = s.z ∧
    (s.hostRead addr).busData.getLsbD 3 = s.ovr ∧
    bits (s.hostRead addr).busData 7 4 = 0 ∧
    bits (s.hostRead addr).busData 11 8 = s.ecode.toNat ∧
    bits (s.hostRead addr).busData 31 12 = 0

/-- CFG, BMCTL and ERRCNT read their fields while BUSY = 0, every other bit 0 (10_state.md R36, R37, R38). -/
def Obligations.ControlReadsTheirFields : Prop :=
  ∀ (s : State) (addr : BitVec 16), s.activity = .idle →
    (addr.toNat / 4 = 0x14 / 4 →
      bits (s.hostRead addr).busData 5 0 = s.cfg.n.toNat ∧
      bits (s.hostRead addr).busData 7 6 = 0 ∧
      bits (s.hostRead addr).busData 13 8 = s.cfg.k.toNat ∧
      bits (s.hostRead addr).busData 15 14 = 0 ∧
      bits (s.hostRead addr).busData 21 16 = s.cfg.nk.toNat ∧
      bits (s.hostRead addr).busData 30 22 = 0 ∧
      (s.hostRead addr).busData.getLsbD 31 = s.cfg.cfgv) ∧
    (addr.toNat / 4 = 0x18 / 4 →
      bits (s.hostRead addr).busData 6 0 = s.bm.l.toNat ∧
      bits (s.hostRead addr).busData 7 7 = 0 ∧
      bits (s.hostRead addr).busData 14 8 = s.bm.d.toNat ∧
      bits (s.hostRead addr).busData 15 15 = 0 ∧
      (s.hostRead addr).busData.getLsbD 16 = s.bm.b ∧
      bits (s.hostRead addr).busData 31 17 = 0) ∧
    (addr.toNat / 4 = 0x1C / 4 →
      (s.hostRead addr).busData.toNat = s.errs.cnt.val) ∧
    (addr.toNat / 4 = 0x10 / 4 → (s.hostRead addr).busData = s.errcmd)

/-- The data windows read their cells while BUSY = 0, and ignore writes (20_memory.md R53, R54, R55, R57, R58); a
degree window reads the degree of a canonical polynomial, as every one is in a state that meets the invariant. -/
def Obligations.WindowsReadTheirCells : Prop :=
  ∀ (s : State) (addr : BitVec 16) (v : Word), s.activity = .idle →
    (∀ i : Fin 16, addr.toNat = 0x40 + 4 * i.val →
      (s.hostRead addr).busData.toNat = s.f[i].val ∧ s.hostWrite addr v = s) ∧
    (∀ i : Fin 16, addr.toNat = 0x80 + 4 * i.val →
      (s.hostRead addr).busData.toNat = s.p[i].degReg.toNat ∧ s.hostWrite addr v = s ∧
      (s.p[i].Canonical → (s.hostRead addr).busData.toNat = s.p[i].deg)) ∧
    (∀ w : Fin 5, addr.toNat = 0xC0 + 4 * w.val →
      (s.hostRead addr).busData.toNat = (s.bm.workNo w).degReg.toNat ∧ s.hostWrite addr v = s ∧
      ((s.bm.workNo w).Canonical →
        (s.hostRead addr).busData.toNat = (s.bm.workNo w).deg)) ∧
    (∀ i : Fin 58, addr.toNat = 0x100 + 4 * i.val →
      (s.hostRead addr).busData.toNat = s.errs.pos[i].val ∧ s.hostWrite addr v = s) ∧
    (∀ i : Fin 58, addr.toNat = 0x200 + 4 * i.val →
      (s.hostRead addr).busData.toNat = s.errs.loc[i].val ∧ s.hostWrite addr v = s) ∧
    (∀ i : Fin 58, addr.toNat = 0x300 + 4 * i.val →
      (s.hostRead addr).busData.toNat = s.errs.mag[i].val ∧ s.hostWrite addr v = s) ∧
    (∀ (r : Fin 16) (j : Fin 128), addr.toNat = 0x4000 + 4 * (128 * r.val + j.val) →
      (s.hostRead addr).busData.toNat = (s.p[r].coeff j.val).val ∧ s.hostWrite addr v = s) ∧
    (∀ (w : Fin 5) (j : Fin 128), addr.toNat = 0x6000 + 4 * (128 * w.val + j.val) →
      (s.hostRead addr).busData.toNat = ((s.bm.workNo w).coeff j.val).val ∧
        s.hostWrite addr v = s)

/-- The unmapped offsets of 20_memory.md R63 read 0; every write but one to CTRL or CMD is ignored; CTRL and CMD read
0 while BUSY = 0 (R59). That an unmapped offset reads 0 also while BUSY = 1, and that CTRL and CMD are claimed to read
0 only while BUSY = 0, is the model's choice between R59 and 93_implementation_defined.md U1 (log 4). -/
def Obligations.UnmappedReadsAreZeroAndOtherWritesIgnored : Prop :=
  ∀ (s : State) (addr : BitVec 16) (v : Word),
    ((0x20 ≤ addr.toNat ∧ addr.toNat ≤ 0x3F) ∨ (0xD4 ≤ addr.toNat ∧ addr.toNat ≤ 0xFF) ∨
      (0x1E8 ≤ addr.toNat ∧ addr.toNat ≤ 0x1FF) ∨ (0x2E8 ≤ addr.toNat ∧ addr.toNat ≤ 0x2FF) ∨
      (0x3E8 ≤ addr.toNat ∧ addr.toNat ≤ 0x3FFF) ∨ 0x6A00 ≤ addr.toNat →
        (s.hostRead addr).busData = 0) ∧
    (addr.toNat / 4 ≠ 0x4 / 4 → addr.toNat / 4 ≠ 0xC / 4 → s.hostWrite addr v = s) ∧
    (addr.toNat / 4 = 0x4 / 4 ∨ addr.toNat / 4 = 0xC / 4 → s.activity = .idle →
      (s.hostRead addr).busData = 0)

/-- A host read changes nothing of the core; a new unspecified value is drawn only while BUSY = 1 (20_memory.md
R62, 93_implementation_defined.md U1; that it is a draw is the model's choice, log 4). -/
def Obligations.ReadsHaveNoSideEffects : Prop :=
  ∀ (s t : State) (addr : BitVec 16) (rest : List Event), s.agenda = .host (.read addr) :: rest →
    step s = .next t →
    t = { s with agenda := rest, busData := t.busData, draws := t.draws } ∧
    (s.activity = .idle → t.draws = s.draws)

/-- Address bits [1:0] are ignored, by reads and by writes (20_memory.md R51, R61). -/
def Obligations.LowAddressBitsAreIgnored : Prop :=
  ∀ (s : State) (addr : BitVec 16) (v : Word),
    s.hostRead addr = s.hostRead (addr &&& 0xFFFC) ∧
    s.hostWrite addr v = s.hostWrite (addr &&& 0xFFFC) v

/-! ## All commands: frames and flags -/

/-- No command writes state outside its row of 10_state.md R23, and a command that faults writes none of it; OVR and
the host's side are never a command's result. This is the frame of every command. -/
def Obligations.CommandsWriteOnlyTheirRows : Prop :=
  ∀ (i : Instr) (s t : State), exec i s = .next t →
    (∀ r, destF i ≠ some r → t.f[r] = s.f[r]) ∧
    (∀ r, r ∉ destP i → t.p[r] = s.p[r]) ∧
    ((∀ n k, i ≠ .rscfg n k) → t.cfg = s.cfg) ∧
    (writesBm i = false → t.bm = s.bm) ∧
    ((∀ a, i ≠ .rsroot a) →
      t.errs.cnt = s.errs.cnt ∧ t.errs.pos = s.errs.pos ∧ t.errs.loc = s.errs.loc) ∧
    ((∀ a, i ≠ .rsroot a) → (∀ a, i ≠ .rsforney a) → t.errs.mag = s.errs.mag) ∧
    t.ovr = s.ovr ∧ t.agenda = s.agenda ∧ t.busData = s.busData ∧ t.draws = s.draws ∧
    (s.err = false → t.err = true → t.f = s.f ∧ t.p = s.p ∧ t.z = s.z ∧ t.cfg = s.cfg ∧
      t.bm = s.bm ∧ t.errs = s.errs)

/-- Z is left unchanged by NOP, RSCFG, BMINIT, BMSTEP, RSBM and RSFORNEY and by every faulting command
(10_state.md R24). -/
def Obligations.ZUnchangedByItsKeepersAndFaults : Prop :=
  ∀ (i : Instr) (s t : State), s.err = false → exec i s = .next t →
    keepsZ i = true ∨ t.err = true → t.z = s.z

/-- CapacityExceeded is raised exactly under the conditions of 60_exceptions.md R231. -/
def Obligations.CapacityExceededExactlyWhereListed : Prop :=
  ∀ (i : Instr) (s t : State), s.err = false → exec i s = .next t →
    ((t.err = true ∧ t.ecode = 6) ↔ capacityExceeded i s)

/-! ## The field unit -/

/-- NOP changes nothing (40_field.md R100); FEQ writes Z alone (R111). -/
def Obligations.NopAndFeqResults : Prop :=
  encode .nop = 0 ∧ HasEncoding .nop 0x00 .n ∧ (∀ s : State, exec .nop s = .next s) ∧
  ∀ (a b : FReg) (s : State), HasEncoding (.feq a b) 0x0B .ab ∧
    ∃ t, exec (.feq a b) s = .next t ∧ WritesZ s t (s.f[a] = s.f[b])

/-- FLI loads 0..58 and raises InvalidFieldValue above (40_field.md R101). -/
def Obligations.FliLoadsOrFaults : Prop :=
  ∀ (d : FReg) (imm : BitVec 14) (s : State),
    HasEncoding (.fli d imm) 0x01 .di ∧
    (imm.toNat ≤ 58 → ∃ t v, exec (.fli d imm) s = .next t ∧ v.val = imm.toNat ∧ WritesF s t d v) ∧
    (58 < imm.toNat →
      ∃ t, exec (.fli d imm) s = .next t ∧ RecordsFault s t (encode (.fli d imm)) 1)

/-- FMOV, FADD and FNEG (40_field.md R102, R103, R105), on integers. -/
def Obligations.FmovFaddFnegResults : Prop :=
  ∀ (d a b : FReg) (s : State),
    HasEncoding (.fmov d a) 0x02 .da ∧ HasEncoding (.fadd d a b) 0x03 .dab ∧
    HasEncoding (.fneg d a) 0x05 .da ∧
    (∃ t, exec (.fmov d a) s = .next t ∧ WritesF s t d s.f[a]) ∧
    (∃ t v, exec (.fadd d a b) s = .next t ∧ v.val = (s.f[a].val + s.f[b].val) % 59 ∧
      WritesF s t d v) ∧
    (∃ t v, exec (.fneg d a) s = .next t ∧ v.val = (59 - s.f[a].val) % 59 ∧
      WritesF s t d v ∧ (t.z = true ↔ s.f[a] = 0))

/-- FSUB (40_field.md R104), on integers; Z says whether the sources are equal. -/
def Obligations.FsubResult : Prop :=
  ∀ (d a b : FReg) (s : State),
    HasEncoding (.fsub d a b) 0x04 .dab ∧ ∃ t v, exec (.fsub d a b) s = .next t ∧
    (v.val : Int) = ((s.f[a].val : Int) - (s.f[b].val : Int)) % 59 ∧ WritesF s t d v ∧
    (t.z = true ↔ s.f[a] = s.f[b])

/-- FMUL (40_field.md R106), on integers; the field has no zero divisors. -/
def Obligations.FmulResult : Prop :=
  ∀ (d a b : FReg) (s : State),
    HasEncoding (.fmul d a b) 0x06 .dab ∧ ∃ t v, exec (.fmul d a b) s = .next t ∧
    v.val = s.f[a].val * s.f[b].val % 59 ∧ WritesF s t d v ∧
    (t.z = true ↔ s.f[a] = 0 ∨ s.f[b] = 0)

/-- FDIV and FINV (40_field.md R107, R108): the unique quotient and inverse, or NoInverse. -/
def Obligations.FdivAndFinvResults : Prop :=
  ∀ (d a b : FReg) (s : State),
    HasEncoding (.fdiv d a b) 0x07 .dab ∧ HasEncoding (.finv d a) 0x08 .da ∧
    (s.f[b] ≠ 0 → ∃ t v, exec (.fdiv d a b) s = .next t ∧ v * s.f[b] = s.f[a] ∧
      WritesF s t d v ∧ (t.z = true ↔ s.f[a] = 0)) ∧
    (s.f[b] = 0 →
      ∃ t, exec (.fdiv d a b) s = .next t ∧ RecordsFault s t (encode (.fdiv d a b)) 2) ∧
    (s.f[a] ≠ 0 → ∃ t v, exec (.finv d a) s = .next t ∧ s.f[a] * v = 1 ∧
      (∀ u, s.f[a] * u = 1 → u = v) ∧ WritesF s t d v ∧ t.z = false) ∧
    (s.f[a] = 0 →
      ∃ t, exec (.finv d a) s = .next t ∧ RecordsFault s t (encode (.finv d a)) 2)

/-- FPOW (40_field.md R109): repeated multiplication for an exponent at least 0, the inverse of that for a negative
one, NoInverse for 0 to a negative power. The exponent is the immediate in two's complement. -/
def Obligations.FpowResult : Prop :=
  ∀ (d a : FReg) (imm : BitVec 14) (s : State),
    HasEncoding (.fpow d a imm) 0x09 .dai ∧
    (0 ≤ imm.toInt → ∃ t, exec (.fpow d a imm) s = .next t ∧
      WritesF s t d ((fun r => r * s.f[a])^[imm.toInt.toNat] 1) ∧
      (t.z = true ↔ s.f[a] = 0 ∧ 0 < imm.toInt)) ∧
    (imm.toInt < 0 → s.f[a] ≠ 0 → ∃ t v, exec (.fpow d a imm) s = .next t ∧
      ((fun r => r * s.f[a])^[(-imm.toInt).toNat] 1) * v = 1 ∧ WritesF s t d v ∧ t.z = false) ∧
    (imm.toInt < 0 → s.f[a] = 0 →
      ∃ t, exec (.fpow d a imm) s = .next t ∧ RecordsFault s t (encode (.fpow d a imm)) 2)

/-- FPOWF raises InvalidOperand whatever the registers hold (40_field.md R110): that is its whole effect. -/
def Obligations.FpowfAlwaysFaults : Prop :=
  ∀ (d a b : FReg) (s : State),
    HasEncoding (.fpowf d a b) 0x0A .dab ∧ ∃ t, exec (.fpowf d a b) s = .next t ∧
    RecordsFault s t (encode (.fpowf d a b)) 3

/-! ## The polynomial engine -/

/-- PCLR and PMOV (41_poly.md R130, R131). -/
def Obligations.PclrAndPmovResults : Prop :=
  ∀ (d a : PReg) (s : State),
    HasEncoding (.pclr d) 0x10 .d ∧ HasEncoding (.pmov d a) 0x11 .da ∧
    (∃ t, exec (.pclr d) s = .next t ∧ WritesP s t d (fun _ => 0) ∧ t.p[d].degReg = 0) ∧
    (∃ t, exec (.pmov d a) s = .next t ∧ CopiesP s t d s.p[a])

/-- PPUSH and PPUSHI (41_poly.md R133, R134): `q·x + v`, or CapacityExceeded when the register holds a polynomial of
degree 127; PPUSHI checks its immediate first. -/
def Obligations.PpushAndPpushiResults : Prop :=
  ∀ (d : PReg) (a : FReg) (imm : BitVec 14) (s : State),
    HasEncoding (.ppush d a) 0x12 .da ∧ HasEncoding (.ppushi d imm) 0x13 .di ∧
    (s.p[d].coeff 127 = 0 → ∃ t, exec (.ppush d a) s = .next t ∧
      WritesP s t d (fun j => if j = 0 then s.f[a] else s.p[d].coeff (j - 1))) ∧
    (s.p[d].coeff 127 ≠ 0 →
      ∃ t, exec (.ppush d a) s = .next t ∧ RecordsFault s t (encode (.ppush d a)) 6) ∧
    (imm.toNat ≤ 58 → s.p[d].coeff 127 = 0 → ∃ t v, exec (.ppushi d imm) s = .next t ∧
      v.val = imm.toNat ∧
      WritesP s t d (fun j => if j = 0 then v else s.p[d].coeff (j - 1))) ∧
    (58 < imm.toNat →
      ∃ t, exec (.ppushi d imm) s = .next t ∧ RecordsFault s t (encode (.ppushi d imm)) 1) ∧
    (imm.toNat ≤ 58 → s.p[d].coeff 127 ≠ 0 →
      ∃ t, exec (.ppushi d imm) s = .next t ∧ RecordsFault s t (encode (.ppushi d imm)) 6)

/-- PSETC and PGETC (41_poly.md R135, R136): by power; PSETC above 127 is CapacityExceeded, PGETC above 127 reads
0. -/
def Obligations.PsetcAndPgetcResults : Prop :=
  (∀ (d : PReg) (a : FReg) (imm : BitVec 14) (s : State), HasEncoding (.psetc d a imm) 0x14 .dai ∧
    (imm.toNat ≤ 127 → ∃ t, exec (.psetc d a imm) s = .next t ∧
      WritesP s t d (fun j => if j = imm.toNat then s.f[a] else s.p[d].coeff j)) ∧
    (127 < imm.toNat →
      ∃ t, exec (.psetc d a imm) s = .next t ∧ RecordsFault s t (encode (.psetc d a imm)) 6)) ∧
  ∀ (d : FReg) (a : PReg) (imm : BitVec 14) (s : State),
    HasEncoding (.pgetc d a imm) 0x15 .dai ∧ ∃ t v, exec (.pgetc d a imm) s = .next t ∧ WritesF s t d v ∧
    (∀ h : imm.toNat < 128, v = s.p[a].c[imm.toNat]) ∧ (128 ≤ imm.toNat → v = 0)

/-- PADD and PSUB (41_poly.md R137, R138), coefficient by coefficient on integers. -/
def Obligations.PaddAndPsubResults : Prop :=
  ∀ (d a b : PReg) (s : State),
    HasEncoding (.padd d a b) 0x16 .dab ∧ HasEncoding (.psub d a b) 0x17 .dab ∧
    (∃ t coef, exec (.padd d a b) s = .next t ∧ WritesP s t d coef ∧
      ∀ j, (coef j).val = ((s.p[a].coeff j).val + (s.p[b].coeff j).val) % 59) ∧
    (∃ t coef, exec (.psub d a b) s = .next t ∧ WritesP s t d coef ∧
      (∀ j, ((coef j).val : Int) =
        (((s.p[a].coeff j).val : Int) - ((s.p[b].coeff j).val : Int)) % 59) ∧
      (t.z = true ↔ ∀ j, j < 128 → s.p[a].coeff j = s.p[b].coeff j))

/-- PMUL (41_poly.md R139): the convolution, with no coefficient above 127 lost; Z iff a source is zero;
CapacityExceeded when the degrees sum above 127. -/
def Obligations.PmulResult : Prop :=
  ∀ (d a b : PReg) (s : State),
    HasEncoding (.pmul d a b) 0x18 .dab ∧
    (s.p[a].deg + s.p[b].deg ≤ 127 → ∃ t coef, exec (.pmul d a b) s = .next t ∧
      WritesP s t d coef ∧
      (∀ j, coef j = sumTo (fun i => s.p[a].coeff i * s.p[b].coeff (j - i)) (j + 1)) ∧
      (∀ j, 128 ≤ j → coef j = 0) ∧
      (t.z = true ↔ (∀ j, s.p[a].coeff j = 0) ∨ ∀ j, s.p[b].coeff j = 0)) ∧
    (127 < s.p[a].deg + s.p[b].deg →
      ∃ t, exec (.pmul d a b) s = .next t ∧ RecordsFault s t (encode (.pmul d a b)) 6)

/-- PSCALE (41_poly.md R140); Z iff the source is zero or the scalar is 0. -/
def Obligations.PscaleResult : Prop :=
  ∀ (d a : PReg) (b : FReg) (s : State),
    HasEncoding (.pscale d a b) 0x19 .dab ∧ ∃ t coef, exec (.pscale d a b) s = .next t ∧
    WritesP s t d coef ∧ (∀ j, (coef j).val = (s.p[a].coeff j).val * s.f[b].val % 59) ∧
    (t.z = true ↔ (∀ j, s.p[a].coeff j = 0) ∨ s.f[b] = 0)

/-- PSHL and PSHR (41_poly.md R141, R142): multiplication and division by x^s. PSHL of a nonzero polynomial past
power 127 is CapacityExceeded; PSHL of the zero polynomial is zero whatever the count. -/
def Obligations.PshlAndPshrResults : Prop :=
  ∀ (d a : PReg) (imm : BitVec 14) (s : State),
    HasEncoding (.pshl d a imm) 0x1A .dai ∧ HasEncoding (.pshr d a imm) 0x1B .dai ∧
    ((∀ j, s.p[a].coeff j = 0) →
      ∃ t, exec (.pshl d a imm) s = .next t ∧ WritesP s t d (fun _ => 0)) ∧
    ((∃ j, s.p[a].coeff j ≠ 0) → s.p[a].deg + imm.toNat ≤ 127 →
      ∃ t, exec (.pshl d a imm) s = .next t ∧ t.z = false ∧
      WritesP s t d (fun j => if imm.toNat ≤ j then s.p[a].coeff (j - imm.toNat) else 0)) ∧
    ((∃ j, s.p[a].coeff j ≠ 0) → 127 < s.p[a].deg + imm.toNat →
      ∃ t, exec (.pshl d a imm) s = .next t ∧ RecordsFault s t (encode (.pshl d a imm)) 6) ∧
    (∃ t, exec (.pshr d a imm) s = .next t ∧
      WritesP s t d (fun j => s.p[a].coeff (j + imm.toNat)) ∧
      (t.z = true ↔ s.p[a].deg < imm.toNat ∨ ∀ j, s.p[a].coeff j = 0))

/-- PDIVMOD (41_poly.md R143, R146): for a nonzero divisor the quotient and the remainder satisfy the division law
at every power, the remainder is zero or of lower degree, and Z says whether it is zero; a zero divisor is
DivisionByZero. Equal destinations are IllegalCommand, whatever the divisor. -/
def Obligations.PdivmodDivides : Prop :=
  ∀ (d c a b : PReg) (s : State),
    (d = c →
      ∃ t, exec (.pdivmod d c a b) s = .next t ∧ RecordsFault s t (encode (.pdivmod d c a b)) 7) ∧
    (d ≠ c → HasEncoding (.pdivmod d c a b) 0x1C .dcab) ∧
    (d ≠ c → (∃ j, s.p[b].coeff j ≠ 0) → ∃ t, exec (.pdivmod d c a b) s = .next t ∧
      t = { s with p := t.p, z := t.z } ∧ (∀ r, r ≠ d → r ≠ c → t.p[r] = s.p[r]) ∧
      t.p[d].Canonical ∧ t.p[c].Canonical ∧
      (∀ j, sumTo (fun i => t.p[d].coeff i * s.p[b].coeff (j - i)) (j + 1) + t.p[c].coeff j =
        s.p[a].coeff j) ∧
      ((∀ j, t.p[c].coeff j = 0) ∨ t.p[c].deg < s.p[b].deg) ∧
      (t.z = true ↔ ∀ j, t.p[c].coeff j = 0)) ∧
    (d ≠ c → (∀ j, s.p[b].coeff j = 0) → ∃ t, exec (.pdivmod d c a b) s = .next t ∧
      RecordsFault s t (encode (.pdivmod d c a b)) 4)

/-- PEVAL (41_poly.md R144): Horner's value is the sum of the terms `c[j]·x^j`. -/
def Obligations.PevalResult : Prop :=
  ∀ (d : FReg) (a : PReg) (b : FReg) (s : State),
    HasEncoding (.peval d a b) 0x1D .dab ∧ ∃ t v, exec (.peval d a b) s = .next t ∧
    v = sumTo (fun j => s.p[a].coeff j * ((fun r => r * s.f[b])^[j] 1)) 128 ∧ WritesF s t d v

/-- PEQ (41_poly.md R145): all 128 coefficients. -/
def Obligations.PeqResult : Prop :=
  ∀ (a b : PReg) (s : State),
    HasEncoding (.peq a b) 0x1E .ab ∧ ∃ t, exec (.peq a b) s = .next t ∧
    WritesZ s t (∀ j, j < 128 → s.p[a].coeff j = s.p[b].coeff j)

/-! ## The Reed-Solomon units -/

/-- RSCFG (42_rs_config_syndrome.md R170): sets the configuration for `1 <= k < n <= 58` and changes nothing else;
every other pair is InvalidParameters and leaves the configuration. -/
def Obligations.RscfgSetsOrFaults : Prop :=
  ∀ (n k : BitVec 7) (s : State),
    HasEncoding (.rscfg n k) 0x20 .i ∧
    (1 ≤ k.toNat → k.toNat < n.toNat → n.toNat ≤ 58 → ∃ t, exec (.rscfg n k) s = .next t ∧
      t = { s with cfg := t.cfg } ∧ t.cfg.n.toNat = n.toNat ∧ t.cfg.k.toNat = k.toNat ∧
      t.cfg.nk.toNat = n.toNat - k.toNat ∧ t.cfg.cfgv = true) ∧
    (k.toNat = 0 ∨ n.toNat ≤ k.toNat ∨ 59 ≤ n.toNat →
      ∃ t, exec (.rscfg n k) s = .next t ∧ RecordsFault s t (encode (.rscfg n k)) 5)

/-- RSSYN (42_rs_config_syndrome.md R171): coefficient `l` is the received polynomial's value at 2^l for `l` in
1..NK, and 0 elsewhere; without a configuration InvalidParameters. -/
def Obligations.RssynResult : Prop :=
  ∀ (d a : PReg) (s : State),
    HasEncoding (.rssyn d a) 0x21 .da ∧
    (s.cfg.cfgv = true → ∃ t, exec (.rssyn d a) s = .next t ∧
      WritesP s t d (fun l => if 1 ≤ l ∧ l ≤ s.cfg.nk.toNat then
        sumTo (fun j => s.p[a].coeff j * ((fun r => r * pow2 l)^[j] 1)) 128 else 0)) ∧
    (s.cfg.cfgv = false →
      ∃ t, exec (.rssyn d a) s = .next t ∧ RecordsFault s t (encode (.rssyn d a)) 5)

/-- Syndromes and verification agree (42_rs_config_syndrome.md R172): RSSYN gives the zero polynomial exactly when
PDIVMOD of the same word by the generator polynomial of R173 gives a zero remainder. -/
def Obligations.SyndromesVanishExactlyOnMultiplesOfTheGenerator : Prop :=
  ∀ (d q r a g : PReg) (s : State), s.cfg.cfgv = true → s.cfg.Legal → q ≠ r →
    (∀ j, s.p[g].coeff j = genCoeff s.cfg.nk.toNat j) →
    ∃ t u, exec (.rssyn d a) s = .next t ∧ exec (.pdivmod q r a g) s = .next u ∧
      ((∀ j, t.p[d].coeff j = 0) ↔ ∀ j, u.p[r].coeff j = 0) ∧ (t.z = true ↔ u.z = true)

/-- BMINIT (43_berlekamp_massey.md R190). -/
def Obligations.BminitResult : Prop :=
  ∀ (a : PReg) (s : State),
    HasEncoding (.bminit a) 0x22 .a ∧ ∃ t, exec (.bminit a) s = .next t ∧ t = { s with bm := t.bm } ∧
    t.bm.ws = s.p[a] ∧
    (∀ j, t.bm.sig.coeff j = (if j = 0 then 1 else 0) ∧
      t.bm.om.coeff j = (if j = 0 then 1 else 0) ∧ t.bm.tau.coeff j = (if j = 0 then 1 else 0) ∧
      t.bm.gam.coeff j = 0) ∧
    t.bm.d = 0 ∧ t.bm.b = false ∧ t.bm.l = 0

/-- BMSTEP (43_berlekamp_massey.md R191, R194): for the discrepancy Δ of the rule, the new σ and ω in every case, and
the row of the rule-selection table for D, B, τ, γ; CapacityExceeded at BM_L = 127. The premise is the bound of
10_state.md R28, which every reachable state has. -/
def Obligations.BmstepFollowsTheTable : Prop :=
  ∀ (s : State) (delta : Elem), s.bm.Bounded →
    delta = sumTo (fun i => ((if i = 0 then 1 else 0) + s.bm.ws.coeff i) *
      s.bm.sig.coeff (s.bm.l.toNat + 1 - i)) (s.bm.l.toNat + 2) →
    HasEncoding .bmstep 0x23 .n ∧
    (s.bm.l.toNat ≤ 126 → ∃ t, exec .bmstep s = .next t ∧ t = { s with bm := t.bm } ∧
      t.bm.ws = s.bm.ws ∧ t.bm.l.toNat = s.bm.l.toNat + 1 ∧
      (∀ j, t.bm.sig.coeff j =
        s.bm.sig.coeff j - delta * (if j = 0 then 0 else s.bm.tau.coeff (j - 1))) ∧
      (∀ j, t.bm.om.coeff j =
        s.bm.om.coeff j - delta * (if j = 0 then 0 else s.bm.gam.coeff (j - 1))) ∧
      (if delta = 0 ∨ 2 * s.bm.d.toNat > s.bm.l.toNat + 1 ∨
          (2 * s.bm.d.toNat = s.bm.l.toNat + 1 ∧ s.bm.b = false) then
        (∀ j, t.bm.tau.coeff j = (if j = 0 then 0 else s.bm.tau.coeff (j - 1))) ∧
        (∀ j, t.bm.gam.coeff j = (if j = 0 then 0 else s.bm.gam.coeff (j - 1))) ∧
        t.bm.d = s.bm.d ∧ t.bm.b = s.bm.b
      else
        (∀ j, t.bm.tau.coeff j * delta = s.bm.sig.coeff j) ∧
        (∀ j, t.bm.gam.coeff j * delta = s.bm.om.coeff j) ∧
        t.bm.d.toNat = s.bm.l.toNat + 1 - s.bm.d.toNat ∧ t.bm.b = !s.bm.b)) ∧
    (s.bm.l.toNat = 127 → ∃ t, exec .bmstep s = .next t ∧ RecordsFault s t (encode .bmstep) 6)

/-- RSBM (43_berlekamp_massey.md R192, R196): the working state that BMINIT and NK times BMSTEP leave, with σ and ω
delivered and nothing else changed; without a configuration InvalidParameters. Equal destinations are
IllegalCommand, with or without a configuration. -/
def Obligations.RsbmIsBminitAndBmsteps : Prop :=
  ∀ (d c a : PReg) (s : State),
    (d = c → ∃ t, exec (.rsbm d c a) s = .next t ∧ RecordsFault s t (encode (.rsbm d c a)) 7) ∧
    (d ≠ c → HasEncoding (.rsbm d c a) 0x24 .dca) ∧
    (d ≠ c → s.cfg.cfgv = true → ∃ u t,
      runAll (.bminit a :: List.replicate s.cfg.nk.toNat .bmstep) s = .next u ∧
      exec (.rsbm d c a) s = .next t ∧ t = { s with bm := u.bm, p := t.p } ∧
      t.p[d] = u.bm.sig ∧ t.p[c] = u.bm.om ∧ (∀ r, r ≠ d → r ≠ c → t.p[r] = s.p[r]) ∧
      t.bm.l.toNat = s.cfg.nk.toNat) ∧
    (d ≠ c → s.cfg.cfgv = false →
      ∃ t, exec (.rsbm d c a) s = .next t ∧ RecordsFault s t (encode (.rsbm d c a)) 5)

/-- BMGET copies the working polynomial its selector names (43_berlekamp_massey.md R193): the selectors 0, 1, 2, 3 and
4 in the immediate name `W_S`, `W_SIG`, `W_OM`, `W_TAU` and `W_GAM`. -/
def Obligations.BmgetResult : Prop :=
  ∀ (d : PReg) (s : State),
    (∀ sel : WSel, HasEncoding (.bmget d sel) 0x25 .di) ∧
    bits (encode (.bmget d .s)) 13 0 = 0 ∧ bits (encode (.bmget d .sigma)) 13 0 = 1 ∧
    bits (encode (.bmget d .omega)) 13 0 = 2 ∧ bits (encode (.bmget d .tau)) 13 0 = 3 ∧
    bits (encode (.bmget d .gamma)) 13 0 = 4 ∧
    (∃ t, exec (.bmget d .s) s = .next t ∧ CopiesP s t d s.bm.ws) ∧
    (∃ t, exec (.bmget d .sigma) s = .next t ∧ CopiesP s t d s.bm.sig) ∧
    (∃ t, exec (.bmget d .omega) s = .next t ∧ CopiesP s t d s.bm.om) ∧
    (∃ t, exec (.bmget d .tau) s = .next t ∧ CopiesP s t d s.bm.tau) ∧
    (∃ t, exec (.bmget d .gamma) s = .next t ∧ CopiesP s t d s.bm.gam)

/-- The key equation (43_berlekamp_massey.md R195): BMINIT of a syndrome polynomial with constant coefficient 0 and
`n` times BMSTEP complete, and leave `(1 + S)·σ` and `ω` equal at the powers 0..n, with 1 as σ's constant
coefficient. -/
def Obligations.KeyEquationHoldsAtEveryIteration : Prop :=
  ∀ (a : PReg) (s : State) (n : Nat), s.p[a].coeff 0 = 0 → n ≤ 127 →
    ∃ t, runAll (.bminit a :: List.replicate n .bmstep) s = .next t ∧ t.bm.ws = s.p[a] ∧
      t.bm.l.toNat = n ∧ t.bm.sig.coeff 0 = 1 ∧
      ∀ j, j ≤ n → sumTo (fun i => ((if i = 0 then 1 else 0) + t.bm.ws.coeff i) *
        t.bm.sig.coeff (j - i)) (j + 1) = t.bm.om.coeff j

/-- RSROOT (44_roots_forney.md R210): the list is sound (locations 2 to the position, positions strictly decreasing,
later entries 0), its positions are exactly the `j` with a root at 2^(58-j), every magnitude is 0, and Z says
whether there is no root. -/
def Obligations.RsrootListsExactlyTheRoots : Prop :=
  ∀ (a : PReg) (s : State),
    HasEncoding (.rsroot a) 0x26 .a ∧ ∃ t, exec (.rsroot a) s = .next t ∧
    t = { s with errs := t.errs, z := t.z } ∧ t.errs.Sound ∧
    (∀ j : Fin 58, (∃ i : Fin 58, i.val < t.errs.cnt.val ∧ t.errs.pos[i] = j) ↔
      sumTo (fun k => s.p[a].coeff k * ((fun r => r * pow2 (58 - j.val))^[k] 1)) 128 = 0) ∧
    (∀ i : Fin 58, t.errs.mag[i] = 0) ∧ (t.z = true ↔ t.errs.cnt.val = 0)

/-- RSFORNEY (44_roots_forney.md R211): on a sound error list (10_state.md R30, an invariant) every magnitude times
R211's product, of `1 - ERRLOC[m]·x` over the listed `m` other than `i`, with `x` the inverse of `ERRLOC[i]`, is ω's
value at `x`, later entries are 0, and nothing but ERRMAG changes; a zero product is NoInverse. -/
def Obligations.RsforneyMagnitudes : Prop :=
  ∀ (a : PReg) (s : State),
    HasEncoding (.rsforney a) 0x27 .a ∧
    (s.errs.Sound → ∃ t, exec (.rsforney a) s = .next t ∧
      t = { s with errs := { s.errs with mag := t.errs.mag } } ∧
      (∀ i : Fin 58, s.errs.cnt.val ≤ i.val → t.errs.mag[i] = 0) ∧
      (∀ (i : Fin 58) (x : Elem), i.val < s.errs.cnt.val → s.errs.loc[i] * x = 1 →
        t.errs.mag[i] *
            ((List.finRange 58).filter fun m => decide (m.val < s.errs.cnt.val ∧ m ≠ i)).foldl
              (fun (pr : Elem) (m : Fin 58) => pr * (1 - s.errs.loc[m] * x)) 1 =
          sumTo (fun k => s.p[a].coeff k * ((fun r => r * x)^[k] 1)) 128)) ∧
    ((∃ (i : Fin 58) (x : Elem), i.val < s.errs.cnt.val ∧ s.errs.loc[i] * x = 1 ∧
        ((List.finRange 58).filter fun m => decide (m.val < s.errs.cnt.val ∧ m ≠ i)).foldl
          (fun (pr : Elem) (m : Fin 58) => pr * (1 - s.errs.loc[m] * x)) 1 = 0) →
      ∃ t, exec (.rsforney a) s = .next t ∧ RecordsFault s t (encode (.rsforney a)) 2)

/-- The model's Forney product is R211's (44_roots_forney.md), and it is 0 exactly when two different entries below
ERRCNT have one location, for an entry whose location has the inverse `x`. -/
def Obligations.ForneyProductsVanishOnEqualLocations : Prop :=
  ∀ (loc : Vector Elem 58) (i : Fin 58) (x : Elem) (n : Nat),
    forneyProduct loc i x n =
      ((List.finRange 58).filter fun m => decide (m.val < n ∧ m ≠ i)).foldl
        (fun (pr : Elem) (m : Fin 58) => pr * (1 - loc[m] * x)) 1 ∧
    (n ≤ 58 → loc[i] * x = 1 →
      (forneyProduct loc i x n = 0 ↔ ∃ m : Fin 58, m.val < n ∧ m ≠ i ∧ loc[m] = loc[i]))

/-- RSEPOLY (44_roots_forney.md R212): always completes; on a sound error list the coefficient at each listed position
is its magnitude, and 0 elsewhere. -/
def Obligations.RsepolyPlacesTheMagnitudes : Prop :=
  ∀ (d : PReg) (s : State),
    HasEncoding (.rsepoly d) 0x28 .d ∧ ∃ t coef, exec (.rsepoly d) s = .next t ∧ WritesP s t d coef ∧
    (s.errs.Sound →
      (∀ i : Fin 58, i.val < s.errs.cnt.val → coef s.errs.pos[i].val = s.errs.mag[i]) ∧
      ∀ j, (∀ i : Fin 58, i.val < s.errs.cnt.val → s.errs.pos[i].val ≠ j) → coef j = 0)

/-! ## The primitives, and a run -/

/-- The primitives the statements above are written with, each in integers (00_scope.md R12): sums, coefficients,
`isZero`, `deg`, `ZERO`, `ONE`, `pow2`, `inv` and `eval`. -/
def Obligations.PrimitivesAreTheSpecs : Prop :=
  (∀ (f : Nat → Elem) (n : Nat),
    (sumTo f n).val = ((List.range n).map fun i => (f i).val).sum % 59) ∧
  (∀ (q : Poly) (j : Nat),
    (∀ h : j < 128, q.coeff j = q.c[j]) ∧ (128 ≤ j → q.coeff j = 0) ∧
    (Poly.one.coeff j).val = (if j = 0 then 1 else 0) ∧ (Poly.zero.coeff j).val = 0) ∧
  (∀ q : Poly,
    (q.isZero = true ↔ ∀ j, q.coeff j = 0) ∧ (∀ j, q.deg < j → q.coeff j = 0) ∧
    (q.isZero = false → q.coeff q.deg ≠ 0) ∧ (q.isZero = true → q.deg = 0)) ∧
  (∀ e : Nat, (pow2 e).val = 2 ^ (e % 58) % 59) ∧
  (∀ v : Elem, v ≠ 0 → v.val * (invElem v).val % 59 = 1) ∧
  ∀ (q : Poly) (x : Elem),
    (q.eval x).val = ((List.range 128).map fun j => (q.coeff j).val * x.val ^ j).sum % 59

/-- A run ends with BUSY = 0, so its result is exactly what the host's reads return; and where neither CLR_ERR nor
SOFT_RESET is written during it, OVR = 1 at the end only if ERR = 1 too: no word of a run is lost but after a fault
(70_reset_and_hazards.md R270, R274; the form of a run: log 16). -/
def Obligations.RunsEndIdleAndReadBack : Prop :=
  ∀ (s t : State) (op : HostOp) (evs : List Event),
    (RunEnds s op evs t → t.activity = .idle ∧
      ∀ addr : BitVec 16, (t.hostRead addr).busData = runResult t addr) ∧
    ∀ v, hostRun s op evs = some (v, t) → v.done = true → v.cleared = false → t.ovr = true →
      t.err = true

/-- The result of a clean run is that of its commands executed one after the other from the reset state: every word the
host wrote to CMD decodes, and the end state is the one the commands leave, whatever the state before the reset, the
host's reads and the time each command took (70_reset_and_hazards.md R271, R274; 20_memory.md R56, R65; the form of a
run: log 16). The host's side, `busData` and `draws`, is no part of the result (log 5). -/
def Obligations.CleanRunsExecuteTheirCommandsInOrder : Prop :=
  ∀ (s t : State) (op : HostOp) (evs : List Event), CleanRun s op evs t →
    ∃ (is : List Instr) (u : State), (issuedWords evs).map decode = is.map .ok ∧
      runAll is State.reset = .next u ∧ t = { u with busData := t.busData, draws := t.draws }
end

