-- ==== Sys2Proof/Laws/Galois.lean ====
section
/-! SUPPORT. Facts about GF(59): inverses, no zero divisors, powers, and finite sums. The ring laws of `Elem` are
Mathlib's, opened with `open scoped Fin.CommRing`. -/

namespace Sys2Proof.Machine

open scoped Fin.CommRing

theorem mul_invElem {v : Elem} (h : v ≠ 0) : v * invElem v = 1 := by
  revert v; decide +kernel

theorem invElem_ne_zero {v : Elem} (h : v ≠ 0) : invElem v ≠ 0 := by
  revert v; decide +kernel

/-- GF(59) has no zero divisors (00_scope.md R8, 40_field.md R106). -/
theorem elem_mul_eq_zero {a b : Elem} : a * b = 0 ↔ a = 0 ∨ b = 0 := by
  constructor
  · intro h
    by_cases ha : a = 0
    · exact .inl ha
    · right
      calc b = a * b * invElem a := by rw [mul_right_comm, mul_invElem ha, one_mul]
        _ = 0 := by rw [h, zero_mul]
  · rintro (rfl | rfl) <;> ring

theorem powElem_zero (x : Elem) : powElem x 0 = 1 := by
  revert x; decide +kernel

theorem powElem_succ (x : Elem) (e : Nat) : powElem x (e + 1) = powElem x e * x := by
  apply Fin.ext
  simp [powElem, Nat.pow_succ, Fin.val_mul, Nat.mod_mul_mod]

theorem powElem_ne_zero {x : Elem} (h : x ≠ 0) (e : Nat) : powElem x e ≠ 0 := by
  induction e with
  | zero => rw [powElem_zero]; decide
  | succ e ih => rw [powElem_succ, Ne, elem_mul_eq_zero]; tauto

theorem pow2_ne_zero (e : Nat) : pow2 e ≠ 0 := powElem_ne_zero (by decide) _

/-- 2 has order 58 (00_scope.md R8). -/
theorem pow2_injective_below_58 : ∀ i j : Fin 58, pow2 i.val = pow2 j.val → i = j := by
  decide +kernel

/-- The model's sum is Mathlib's. -/
theorem sumTo_eq_sum (f : Nat → Elem) (n : Nat) : sumTo f n = ∑ i ∈ Finset.range n, f i := by
  induction n with
  | zero => rfl
  | succ n ih => rw [sumTo, ih, Finset.sum_range_succ]

theorem sumTo_congr {f g : Nat → Elem} {n : Nat} (h : ∀ i, i < n → f i = g i) :
    sumTo f n = sumTo g n := by
  induction n with
  | zero => rfl
  | succ n ih =>
    rw [sumTo, sumTo, ih fun i hi => h i (by omega), h n (by omega)]

end Sys2Proof.Machine
end

