-- ==== Sys2Proof/Laws/PolyOps.lean ====
section
/-! SUPPORT. One lemma for each polynomial primitive: its coefficients, its degree, its canonical form. Later
proofs cite these instead of unfolding cells. -/

namespace Sys2Proof.Machine

open scoped Fin.CommRing

theorem nthElem_eq (l : List Elem) (j : Nat) : nthElem l j = (l[j]?).getD 0 := by
  induction l generalizing j with
  | nil => simp [nthElem]
  | cons v vs ih => cases j <;> simp [nthElem, ih]

/-- A coefficient is the cell of that power, and 0 above 127. -/
theorem coeff_eq (q : Poly) (j : Nat) : q.coeff j = if h : j < 128 then q.c[j] else 0 := by
  rw [Poly.coeff, nthElem_eq]
  split <;> simp [*]

theorem coeff_of_ge (q : Poly) {j : Nat} (h : 128 ≤ j) : q.coeff j = 0 := by
  rw [coeff_eq, dif_neg (by omega)]

theorem cells_eq_iff (a b : Poly) : a.c = b.c ↔ ∀ j, a.coeff j = b.coeff j := by
  constructor
  · intro h j; rw [Poly.coeff, Poly.coeff, h]
  · intro h
    apply Vector.ext
    intro j hj
    simpa [coeff_eq, hj] using h j

/-- `canon f` has the coefficients `f` at the powers 0..127. -/
theorem coeff_canon (f : Nat → Elem) (j : Nat) :
    (canon f).coeff j = if j < 128 then f j else 0 := by
  rw [coeff_eq]
  by_cases h : j < 128 <;> simp [canon, cellsOf, h]

@[simp] theorem coeff_canon_lt (f : Nat → Elem) {j : Nat} (h : j < 128) : (canon f).coeff j = f j := by
  rw [coeff_canon, if_pos h]

@[simp] theorem coeff_zero (j : Nat) : Poly.zero.coeff j = 0 := by
  rw [coeff_eq]; simp [Poly.zero]

@[simp] theorem coeff_one (j : Nat) : Poly.one.coeff j = if j = 0 then 1 else 0 := by
  rw [coeff_eq]
  by_cases h0 : j = 0
  · subst h0; decide
  · by_cases h : j < 128
    · rw [dif_pos h, if_neg h0]; simp [Poly.one, Ne.symm h0]
    · rw [dif_neg h, if_neg h0]

theorem isZero_iff (q : Poly) : q.isZero = true ↔ ∀ j, q.coeff j = 0 := by
  rw [Poly.isZero, List.all_eq_true]
  constructor
  · intro h j
    rw [coeff_eq]
    split
    · next hj => simpa using h q.c[j] (by simp)
    · rfl
  · intro h v hv
    obtain ⟨j, hj, rfl⟩ := List.getElem_of_mem hv
    have := h j
    rw [coeff_eq, dif_pos (by simpa using hj)] at this
    simpa using this

theorem isZero_iff_lt (q : Poly) : q.isZero = true ↔ ∀ j, j < 128 → q.coeff j = 0 := by
  rw [isZero_iff]
  refine ⟨fun h j _ => h j, fun h j => ?_⟩
  by_cases hj : j < 128
  · exact h j hj
  · exact coeff_of_ge q (by omega)

/-- The scan answers `best` when every cell is 0, else the highest power with a nonzero cell. -/
theorem topPower_spec (l : List Elem) (start best : Nat) :
    ((∀ j, nthElem l j = 0) ∧ topPower l start best = best) ∨
    ∃ k, k < l.length ∧ topPower l start best = start + k ∧ nthElem l k ≠ 0 ∧
      ∀ j, k < j → nthElem l j = 0 := by
  induction l generalizing start best with
  | nil => left; simp [nthElem, topPower]
  | cons v vs ih =>
    rw [topPower]
    rcases ih (start + 1) (if v = 0 then best else start) with ⟨h0, ht⟩ | ⟨k, hk, ht, hne, hz⟩
    · by_cases hv : v = 0
      · left
        refine ⟨fun j => ?_, by rw [ht, if_pos hv]⟩
        cases j <;> simp [nthElem, hv, h0]
      · right
        refine ⟨0, by simp, by rw [ht, if_neg hv]; rfl, by simpa [nthElem] using hv, fun j hj => ?_⟩
        cases j with
        | zero => omega
        | succ j => simpa [nthElem] using h0 j
    · right
      refine ⟨k + 1, by simpa using hk, by rw [ht]; omega, by simpa [nthElem] using hne, fun j hj => ?_⟩
      cases j with
      | zero => omega
      | succ j => simpa [nthElem] using hz j (by omega)

/-- The degree is the highest power with a nonzero coefficient, 0 for the zero polynomial. -/
theorem deg_spec (q : Poly) :
    ((∀ j, q.coeff j = 0) ∧ q.deg = 0) ∨
    (q.deg < 128 ∧ q.coeff q.deg ≠ 0 ∧ ∀ j, q.deg < j → q.coeff j = 0) := by
  rcases topPower_spec q.c.toList 0 0 with h | ⟨k, hk, ht, hne, hz⟩
  · exact .inl h
  · right
    have hd : q.deg = k := by rw [Poly.deg, ht]; omega
    rw [hd]
    exact ⟨by simpa using hk, hne, hz⟩

theorem deg_lt (q : Poly) : q.deg < 128 := by
  rcases deg_spec q with ⟨_, h⟩ | ⟨h, _⟩ <;> omega

theorem coeff_above_deg (q : Poly) {j : Nat} (h : q.deg < j) : q.coeff j = 0 := by
  rcases deg_spec q with ⟨hz, _⟩ | ⟨_, _, hz⟩
  · exact hz j
  · exact hz j h

theorem coeff_deg_ne_zero (q : Poly) (h : q.isZero = false) : q.coeff q.deg ≠ 0 := by
  rcases deg_spec q with ⟨hz, _⟩ | ⟨_, hne, _⟩
  · rw [← isZero_iff, h] at hz; cases hz
  · exact hne

theorem deg_le_of_coeff {q : Poly} {n : Nat} (h : ∀ j, n < j → q.coeff j = 0) : q.deg ≤ n := by
  by_contra hlt
  have hlt : n < q.deg := by omega
  rcases deg_spec q with ⟨_, hd⟩ | ⟨_, hne, _⟩
  · omega
  · exact hne (h _ hlt)

theorem deg_le_iff (q : Poly) (n : Nat) : q.deg ≤ n ↔ ∀ j, n < j → q.coeff j = 0 :=
  ⟨fun h _ hj => coeff_above_deg q (by omega), deg_le_of_coeff⟩

/-- The stored degree of a result is its degree. -/
theorem degReg_canon (f : Nat → Elem) : (canon f).degReg.toNat = (canon f).deg := by
  have h : (canon f).degReg = BitVec.ofNat 7 (canon f).deg := rfl
  rw [h, BitVec.toNat_ofNat, Nat.mod_eq_of_lt (deg_lt _)]

/-- A polynomial whose stored degree is its degree is canonical, and conversely (10_state.md R22). -/
theorem canonical_iff (q : Poly) : q.Canonical ↔ q.degReg.toNat = q.deg := by
  constructor
  · rintro ⟨hz, hne | ⟨hd, h0⟩⟩
    · apply Nat.le_antisymm
      · by_contra hlt
        exact hne (coeff_above_deg q (by omega))
      · exact deg_le_of_coeff hz
    · have hd' : q.degReg.toNat = 0 := by rw [hd]; rfl
      rw [hd'] at hz ⊢
      have := deg_le_of_coeff hz
      omega
  · intro h
    rw [Poly.Canonical, h]
    refine ⟨fun j hj => coeff_above_deg q hj, ?_⟩
    rcases deg_spec q with ⟨hz, hd⟩ | ⟨_, hne, _⟩
    · right
      refine ⟨BitVec.eq_of_toNat_eq (by rw [h, hd]; rfl), hz 0⟩
    · exact .inl hne

theorem canonical_canon (f : Nat → Elem) : (canon f).Canonical := (canonical_iff _).2 (degReg_canon f)

theorem canonical_zero : Poly.zero.Canonical :=
  ⟨fun j _ => coeff_zero j, .inr ⟨rfl, coeff_zero 0⟩⟩

theorem canonical_one : Poly.one.Canonical := by
  refine ⟨fun j hj => ?_, .inl (by decide)⟩
  have : j ≠ 0 := by rintro rfl; exact absurd hj (by decide)
  simp [this]

theorem same_iff (a b : Poly) : a.same b = true ↔ ∀ j, j < 128 → a.coeff j = b.coeff j := by
  rw [Poly.same, decide_eq_true_iff, cells_eq_iff]
  refine ⟨fun h j _ => h j, fun h j => ?_⟩
  by_cases hj : j < 128
  · exact h j hj
  · rw [coeff_of_ge a (by omega), coeff_of_ge b (by omega)]

theorem coeff_add (a b : Poly) (j : Nat) : (a.add b).coeff j = a.coeff j + b.coeff j := by
  rw [Poly.add, coeff_canon]
  split
  · rfl
  · rw [coeff_of_ge a (by omega), coeff_of_ge b (by omega)]; rfl

theorem coeff_sub (a b : Poly) (j : Nat) : (a.sub b).coeff j = a.coeff j - b.coeff j := by
  rw [Poly.sub, coeff_canon]
  split
  · rfl
  · rw [coeff_of_ge a (by omega), coeff_of_ge b (by omega)]; rfl

theorem coeff_scale (a : Poly) (v : Elem) (j : Nat) : (a.scale v).coeff j = a.coeff j * v := by
  rw [Poly.scale, coeff_canon]
  split
  · rfl
  · rw [coeff_of_ge a (by omega), zero_mul]

theorem coeff_shiftUp (q : Poly) (s j : Nat) :
    (q.shiftUp s).coeff j = if j < 128 ∧ s ≤ j then q.coeff (j - s) else 0 := by
  rw [Poly.shiftUp, coeff_canon]
  by_cases h1 : j < 128 <;> by_cases h2 : s ≤ j <;> simp [h1, h2]

theorem coeff_shiftDown (q : Poly) (s j : Nat) : (q.shiftDown s).coeff j = q.coeff (j + s) := by
  rw [Poly.shiftDown, coeff_canon]
  split
  · rfl
  · rw [coeff_of_ge q (by omega)]

theorem coeff_push (q : Poly) (v : Elem) (j : Nat) :
    (q.push v).coeff j = if j = 0 then v else if j < 128 then q.coeff (j - 1) else 0 := by
  rw [Poly.push, coeff_canon]
  by_cases h0 : j = 0 <;> by_cases h : j < 128 <;> simp [h0, h]

theorem coeff_setCoeff (q : Poly) {p : Nat} (hp : p < 128) (v : Elem) (j : Nat) :
    (q.setCoeff p v).coeff j = if j = p then v else q.coeff j := by
  rw [Poly.setCoeff, coeff_canon]
  by_cases h : j < 128
  · rw [if_pos h]
  · rw [if_neg h, if_neg (by omega), coeff_of_ge q (by omega)]

/-- Horner's method from power `n` with accumulator `acc` gives `acc·x^(n+1)` plus the sum of the terms. -/
theorem hornerFrom_eq (q : Poly) (x : Elem) (n : Nat) (acc : Elem) :
    hornerFrom q x n acc = acc * powElem x (n + 1) + sumTo (fun j => q.coeff j * powElem x j) (n + 1) := by
  induction n generalizing acc with
  | zero => simp [hornerFrom, sumTo, powElem_succ, powElem_zero]
  | succ n ih =>
    rw [hornerFrom, ih, powElem_succ x (n + 1), sumTo.eq_2 _ (n + 1)]
    ring

/-- The value of a polynomial is the sum of its terms, over any range that reaches its degree. -/
theorem eval_eq_sum (q : Poly) (x : Elem) {n : Nat} (hn : q.deg < n) :
    q.eval x = sumTo (fun j => q.coeff j * powElem x j) n := by
  obtain ⟨k, rfl⟩ : ∃ k, n = q.deg + 1 + k := ⟨n - (q.deg + 1), by omega⟩
  clear hn
  rw [Poly.eval, hornerFrom_eq, zero_mul, zero_add]
  induction k with
  | zero => rfl
  | succ k ih =>
    rw [ih, ← Nat.add_assoc, sumTo, coeff_above_deg q (by omega), zero_mul, add_zero]

end Sys2Proof.Machine
end

