-- ==== Sys2Proof/Laws/Convolution.lean ====
section
/-! SUPPORT. Convolution of coefficient sequences, the product, and long division. -/

namespace Sys2Proof.Machine

open scoped Fin.CommRing

theorem convCoeff_eq_sum (a b : Nat → Elem) (j : Nat) :
    convCoeff a b j = ∑ i ∈ Finset.range (j + 1), a i * b (j - i) := sumTo_eq_sum _ _

theorem convCoeff_congr {a a' b b' : Nat → Elem} {j : Nat} (ha : ∀ i, i ≤ j → a i = a' i)
    (hb : ∀ i, i ≤ j → b i = b' i) : convCoeff a b j = convCoeff a' b' j := by
  apply sumTo_congr
  intro i hi
  rw [ha i (by omega), hb (j - i) (by omega)]

theorem convCoeff_zero_right (a : Nat → Elem) (j : Nat) : convCoeff a (fun _ => 0) j = 0 := by
  simp [convCoeff_eq_sum]

theorem convCoeff_zero_left (b : Nat → Elem) (j : Nat) : convCoeff (fun _ => 0) b j = 0 := by
  simp [convCoeff_eq_sum]

theorem convCoeff_sub_right (a b c : Nat → Elem) (j : Nat) :
    convCoeff a (fun i => b i - c i) j = convCoeff a b j - convCoeff a c j := by
  simp [convCoeff_eq_sum, mul_sub, Finset.sum_sub_distrib]

theorem convCoeff_mul_right (a b : Nat → Elem) (v : Elem) (j : Nat) :
    convCoeff a (fun i => b i * v) j = convCoeff a b j * v := by
  simp [convCoeff_eq_sum, Finset.sum_mul, mul_assoc]

/-- Shifting the second sequence up by one shifts the convolution up by one. -/
theorem convCoeff_shift_right (a b : Nat → Elem) (j : Nat) :
    convCoeff a (fun i => if 1 ≤ i then b (i - 1) else 0) (j + 1) = convCoeff a b j := by
  rw [convCoeff_eq_sum, convCoeff_eq_sum, Finset.sum_range_succ]
  rw [Nat.sub_self, if_neg (by omega), mul_zero, add_zero]
  apply Finset.sum_congr rfl
  intro i hi
  rw [Finset.mem_range] at hi
  rw [if_pos (by omega), show j + 1 - i - 1 = j - i by omega]

theorem convCoeff_shift_right_zero (a b : Nat → Elem) :
    convCoeff a (fun i => if 1 ≤ i then b (i - 1) else 0) 0 = 0 := by
  simp [convCoeff_eq_sum]

/-- Above the sum of the degrees a convolution is 0. -/
theorem convCoeff_above {a b : Nat → Elem} {da db j : Nat} (ha : ∀ i, da < i → a i = 0)
    (hb : ∀ i, db < i → b i = 0) (hj : da + db < j) : convCoeff a b j = 0 := by
  rw [convCoeff_eq_sum]
  apply Finset.sum_eq_zero
  intro i hi
  by_cases h : da < i
  · rw [ha i h, zero_mul]
  · rw [hb (j - i) (by omega), mul_zero]

/-- At the sum of the degrees it is the product of the leading coefficients. -/
theorem convCoeff_top {a b : Nat → Elem} {da db : Nat} (ha : ∀ i, da < i → a i = 0)
    (hb : ∀ i, db < i → b i = 0) : convCoeff a b (da + db) = a da * b db := by
  rw [convCoeff_eq_sum, Finset.sum_eq_single da]
  · rw [Nat.add_sub_cancel_left]
  · intro i hi hne
    rw [Finset.mem_range] at hi
    by_cases h : da < i
    · rw [ha i h, zero_mul]
    · rw [hb _ (by omega), mul_zero]
  · intro h; simp at h

/-- The product of polynomials whose degrees fit is their whole convolution. -/
theorem coeff_mul {a b : Poly} (h : a.deg + b.deg ≤ 127) (j : Nat) :
    (a.mul b).coeff j = convCoeff a.coeff b.coeff j := by
  rw [Poly.mul, coeff_canon]
  split
  · rfl
  · rw [convCoeff_above (da := a.deg) (db := b.deg) (fun i hi => coeff_above_deg a hi)
      (fun i hi => coeff_above_deg b hi) (by omega)]

/-- A product is zero iff a factor is (41_poly.md R139). -/
theorem isZero_mul {a b : Poly} (h : a.deg + b.deg ≤ 127) :
    (a.mul b).isZero = true ↔ a.isZero = true ∨ b.isZero = true := by
  constructor
  · intro hz
    by_contra hne
    simp only [not_or, Bool.not_eq_true] at hne
    have htop := convCoeff_top (fun i hi => coeff_above_deg a (j := i) hi)
      (fun i hi => coeff_above_deg b (j := i) hi)
    rw [← coeff_mul h, (isZero_iff _).1 hz] at htop
    rcases elem_mul_eq_zero.1 htop.symm with h0 | h0
    · exact coeff_deg_ne_zero a hne.1 h0
    · exact coeff_deg_ne_zero b hne.2 h0
  · intro hz
    rw [isZero_iff]
    intro j
    rw [coeff_mul h, convCoeff_eq_sum]
    apply Finset.sum_eq_zero
    intro i _
    rcases hz with hz | hz <;> simp [(isZero_iff _).1 hz]

/-- What one elimination step does to the coefficients. -/
theorem divStep_coeff {bv : Poly} {t : Elem} {k : Nat} {qr : Poly × Poly}
    (hk : k + bv.deg < 128) (j : Nat) :
    (divStep bv bv.deg t k qr).1.coeff j =
        (if j = k then qr.2.coeff (k + bv.deg) * t else qr.1.coeff j) ∧
    (divStep bv bv.deg t k qr).2.coeff j =
        qr.2.coeff j - (if k ≤ j then qr.2.coeff (k + bv.deg) * t * bv.coeff (j - k) else 0) := by
  refine ⟨coeff_setCoeff _ (by omega) _ _, ?_⟩
  rw [divStep, coeff_canon]
  by_cases hj : j < 128
  · rw [if_pos hj]
    by_cases h1 : k ≤ j
    · by_cases h2 : j ≤ k + bv.deg
      · rw [if_pos ⟨h1, h2⟩, if_pos h1]
      · rw [if_neg (by omega), if_pos h1, coeff_above_deg bv (by omega), mul_zero, sub_zero]
    · rw [if_neg (by omega), if_neg h1, sub_zero]
  · rw [if_neg hj, coeff_of_ge qr.2 (by omega), if_pos (by omega), coeff_above_deg bv (by omega),
      mul_zero, sub_zero]

/-- Setting a coefficient that was 0 adds one shifted copy of the second sequence. -/
theorem convCoeff_update {q q' b : Nat → Elem} {k : Nat} {m : Elem} (h0 : q k = 0)
    (hq : ∀ j, q' j = if j = k then m else q j) (n : Nat) :
    convCoeff q' b n = convCoeff q b n + (if k ≤ n then m * b (n - k) else 0) := by
  have key : ∀ i, q' i * b (n - i) = q i * b (n - i) + (if i = k then m * b (n - k) else 0) := by
    intro i
    rw [hq i]
    by_cases h : i = k
    · subst h; rw [if_pos rfl, if_pos rfl, h0, zero_mul, zero_add]
    · rw [if_neg h, if_neg h, add_zero]
  rw [convCoeff_eq_sum, convCoeff_eq_sum, Finset.sum_congr rfl fun i _ => key i,
    Finset.sum_add_distrib, Finset.sum_ite_eq']
  simp

/-- Long division keeps `q·b + r` and clears the remainder from the top. -/
theorem divLoop_spec {a bv : Poly} (hb : bv.isZero = false) :
    ∀ (n : Nat) (qr : Poly × Poly), n + bv.deg ≤ 128 →
      (∀ j, convCoeff qr.1.coeff bv.coeff j + qr.2.coeff j = a.coeff j) →
      (∀ j, j < n → qr.1.coeff j = 0) → (∀ j, n + bv.deg ≤ j → qr.2.coeff j = 0) →
      let out := divLoop bv bv.deg (invElem (bv.coeff bv.deg)) n qr
      (∀ j, convCoeff out.1.coeff bv.coeff j + out.2.coeff j = a.coeff j) ∧
      (∀ j, bv.deg ≤ j → out.2.coeff j = 0)
  | 0, qr, _, hsum, _, hr => ⟨hsum, fun j hj => hr j (by omega)⟩
  | n + 1, qr, hn, hsum, hq, hr => by
    have hstep := divStep_coeff (bv := bv) (t := invElem (bv.coeff bv.deg)) (k := n) (qr := qr)
      (by omega)
    apply divLoop_spec hb n _ (by omega)
    · intro j
      rw [convCoeff_update (hq n (by omega)) (fun j => (hstep j).1), (hstep j).2, ← hsum j]
      ring
    · intro j hj
      rw [(hstep j).1, if_neg (by omega), hq j (by omega)]
    · intro j hj
      rw [(hstep j).2, if_pos (by omega)]
      by_cases htop : j = n + bv.deg
      · subst htop
        rw [Nat.add_sub_cancel_left, mul_assoc, mul_comm (invElem _), mul_invElem
          (coeff_deg_ne_zero bv hb), mul_one, sub_self]
      · rw [hr j (by omega), coeff_above_deg bv (j := j - n) (by omega), mul_zero, sub_zero]

/-- The division law (41_poly.md R143, R146). -/
theorem divMod_law (a : Poly) {b : Poly} (hb : b.isZero = false) :
    (∀ j, convCoeff (a.divMod b).1.coeff b.coeff j + (a.divMod b).2.coeff j = a.coeff j) ∧
    (∀ j, b.deg ≤ j → (a.divMod b).2.coeff j = 0) := by
  have hcanon : ∀ j, (canon a.coeff).coeff j = a.coeff j := by
    intro j
    rw [coeff_canon]
    split
    · rfl
    · rw [coeff_of_ge a (by omega)]
  have ha := deg_lt a
  have hb' := deg_lt b
  apply divLoop_spec hb (a.deg + 1 - b.deg) _ (by omega)
  · intro j
    rw [hcanon, convCoeff_congr (a' := fun _ => 0) (fun i _ => coeff_zero i) (fun _ _ => rfl),
      convCoeff_zero_left, zero_add]
  · intro j _; exact coeff_zero j
  · intro j hj; rw [hcanon, coeff_above_deg a (by omega)]

/-- Both outputs of the loop are canonical when its inputs are. -/
theorem divLoop_canonical (bv : Poly) (db : Nat) (t : Elem) :
    ∀ (n : Nat) (qr : Poly × Poly), qr.1.Canonical → qr.2.Canonical →
      (divLoop bv db t n qr).1.Canonical ∧ (divLoop bv db t n qr).2.Canonical
  | 0, _, h1, h2 => ⟨h1, h2⟩
  | n + 1, _, _, _ => divLoop_canonical bv db t n _ (canonical_canon _) (canonical_canon _)

theorem divMod_canonical (a b : Poly) : (a.divMod b).1.Canonical ∧ (a.divMod b).2.Canonical :=
  divLoop_canonical _ _ _ _ _ canonical_zero (canonical_canon _)

end Sys2Proof.Machine
end

