-- ==== Sys2Proof/Laws/BerlekampMassey.lean ====
section
/-! SUPPORT. What one Berlekamp-Massey iteration does: coefficients, bounds (10_state.md R28), canonical form. -/

namespace Sys2Proof.Machine

open scoped Fin.CommRing

/-- `p - Δ·(z·q)`, coefficient by coefficient. -/
theorem coeff_bmCorrect (p q : Poly) (delta : Elem) (j : Nat) :
    (bmCorrect p delta q).coeff j =
      p.coeff j - (if j < 128 ∧ 1 ≤ j then q.coeff (j - 1) else 0) * delta := by
  rw [bmCorrect, coeff_sub, coeff_scale, coeff_shiftUp]

@[simp] theorem bmStep_ws (b : BmState) : (bmStep b).ws = b.ws := by
  rw [bmStep]; cases b.keeps <;> rfl

@[simp] theorem bmStep_sig (b : BmState) : (bmStep b).sig = bmCorrect b.sig b.discrepancy b.tau := by
  rw [bmStep]; cases b.keeps <;> rfl

@[simp] theorem bmStep_om (b : BmState) : (bmStep b).om = bmCorrect b.om b.discrepancy b.gam := by
  rw [bmStep]; cases b.keeps <;> rfl

@[simp] theorem bmStep_l (b : BmState) : (bmStep b).l = BitVec.ofNat 7 (b.l.toNat + 1) := by
  rw [bmStep]; cases b.keeps <;> rfl

theorem bmStep_tau (b : BmState) : (bmStep b).tau =
    if b.keeps then b.tau.shiftUp 1 else b.sig.scale (invElem b.discrepancy) := by
  rw [bmStep]; cases b.keeps <;> rfl

theorem bmStep_gam (b : BmState) : (bmStep b).gam =
    if b.keeps then b.gam.shiftUp 1 else b.om.scale (invElem b.discrepancy) := by
  rw [bmStep]; cases b.keeps <;> rfl

theorem bmStep_d (b : BmState) : (bmStep b).d =
    if b.keeps then b.d else BitVec.ofNat 7 (b.l.toNat + 1 - b.d.toNat) := by
  rw [bmStep]; cases b.keeps <;> rfl

theorem bmStep_b (b : BmState) : (bmStep b).b = if b.keeps then b.b else !b.b := by
  rw [bmStep]; cases b.keeps <;> rfl

theorem bmStep_l_toNat {b : BmState} (h : b.l.toNat ≤ 126) : (bmStep b).l.toNat = b.l.toNat + 1 := by
  rw [bmStep_l, BitVec.toNat_ofNat, Nat.mod_eq_of_lt (by omega)]

/-- The update rule applies only when Δ is not 0 and 2·D is at most l + 1 (R194). -/
theorem keeps_false {b : BmState} (h : b.keeps = false) :
    b.discrepancy ≠ 0 ∧ 2 * b.d.toNat ≤ b.l.toNat + 1 := by
  simp only [BmState.keeps, Bool.or_eq_false_iff, decide_eq_false_iff_not] at h
  exact ⟨h.1.1, by omega⟩

theorem bmInit_bounded (ws : Poly) : (bmInit ws).Bounded := by
  have h1 : Poly.one.deg = 0 := by decide
  have h0 : Poly.zero.deg = 0 := by decide
  have htz : (bmInit ws).tau.isZero = false := show Poly.one.isZero = false by decide
  refine ⟨by simp [bmInit], ?_, ?_, ?_, ?_, htz, by simp [bmInit]⟩ <;>
    simp [bmInit, h1, h0]

/-- A BMSTEP below the counter's limit keeps the bounds (10_state.md R28). -/
theorem bmStep_bounded {b : BmState} (hb : b.Bounded) (hl : b.l.toNat ≤ 126) : (bmStep b).Bounded := by
  obtain ⟨hs0, hsig, hom, htau, hgam, htz, hd⟩ := hb
  have hl' := bmStep_l_toNat hl
  have hcorr : ∀ p q : Poly, p.deg ≤ b.l.toNat → q.deg ≤ b.l.toNat →
      (bmCorrect p b.discrepancy q).deg ≤ b.l.toNat + 1 := by
    intro p q hp hq
    apply deg_le_of_coeff
    intro j hj
    rw [coeff_bmCorrect, coeff_above_deg p (by omega)]
    split
    · rw [coeff_above_deg q (by omega), zero_mul, sub_zero]
    · rw [zero_mul, sub_zero]
  have hshift : ∀ q : Poly, q.deg ≤ b.l.toNat → (q.shiftUp 1).deg ≤ b.l.toNat + 1 := by
    intro q hq
    apply deg_le_of_coeff
    intro j hj
    rw [coeff_shiftUp]
    split
    · rw [coeff_above_deg q (by omega)]
    · rfl
  have hscale : ∀ (q : Poly) (v : Elem), q.deg ≤ b.l.toNat → (q.scale v).deg ≤ b.l.toNat + 1 := by
    intro q v hq
    apply deg_le_of_coeff
    intro j hj
    rw [coeff_scale, coeff_above_deg q (by omega), zero_mul]
  refine ⟨?_, ?_, ?_, ?_, ?_, ?_, ?_⟩
  · rw [bmStep_sig, coeff_bmCorrect, hs0]; simp
  · rw [bmStep_sig, hl']; exact hcorr _ _ hsig htau
  · rw [bmStep_om, hl']; exact hcorr _ _ hom hgam
  · rw [bmStep_tau, hl']; split
    · exact hshift _ htau
    · exact hscale _ _ hsig
  · rw [bmStep_gam, hl']; split
    · exact hshift _ hgam
    · exact hscale _ _ hom
  · rw [bmStep_tau, Bool.eq_false_iff, Ne, isZero_iff]
    cases hk : b.keeps
    · intro hz
      have := hz 0
      rw [if_neg (by simp), coeff_scale, hs0, one_mul] at this
      exact invElem_ne_zero (keeps_false hk).1 this
    · intro hz
      have := hz (b.tau.deg + 1)
      rw [if_pos rfl, coeff_shiftUp, if_pos (by omega), Nat.add_sub_cancel] at this
      exact coeff_deg_ne_zero _ htz this
  · rw [bmStep_d, hl']
    cases hk : b.keeps
    · have := (keeps_false hk).2
      rw [if_neg (by simp), BitVec.toNat_ofNat, Nat.mod_eq_of_lt (by omega)]; omega
    · rw [if_pos rfl]; omega

/-- Every working polynomial an iteration writes is canonical. -/
theorem bmStep_canonical {b : BmState} (h : b.ws.Canonical) (w : WSel) :
    ((bmStep b).work w).Canonical := by
  cases w <;> simp only [BmState.work, bmStep_ws, bmStep_sig, bmStep_om]
  · exact h
  · exact canonical_canon _
  · exact canonical_canon _
  · rw [bmStep_tau]; split <;> exact canonical_canon _
  · rw [bmStep_gam]; split <;> exact canonical_canon _

theorem bmInit_canonical {ws : Poly} (h : ws.Canonical) (w : WSel) :
    ((bmInit ws).work w).Canonical := by
  cases w
  · exact h
  · exact canonical_one
  · exact canonical_one
  · exact canonical_one
  · exact canonical_zero

/-- `n` iterations from below the limit keep the bounds, count `n`, and keep `W_S`. -/
theorem bmIterate_bounded (n : Nat) {b : BmState} (hb : b.Bounded) (hl : b.l.toNat + n ≤ 127) :
    (bmIterate n b).Bounded ∧ (bmIterate n b).l.toNat = b.l.toNat + n ∧
      (bmIterate n b).ws = b.ws := by
  induction n generalizing b with
  | zero => exact ⟨hb, rfl, rfl⟩
  | succ n ih =>
    have hl' := bmStep_l_toNat (b := b) (by omega)
    obtain ⟨h1, h2, h3⟩ := ih (bmStep_bounded hb (by omega)) (by omega)
    exact ⟨h1, by rw [bmIterate, h2]; omega, by rw [bmIterate, h3, bmStep_ws]⟩

theorem bmIterate_canonical (n : Nat) {b : BmState} (h : ∀ w, (b.work w).Canonical) (w : WSel) :
    ((bmIterate n b).work w).Canonical := by
  induction n generalizing b with
  | zero => exact h w
  | succ n ih => exact ih fun w => bmStep_canonical (h .s) w

end Sys2Proof.Machine
end

