-- ==== Sys2Proof/Laws/Bus.lean ====
section
/-! SUPPORT. Which offsets name which register of the host map (20_memory.md R52), and which registers are at one
offset only. -/

namespace Sys2Proof.Machine

theorem controlReg_none {m : Nat} (h : 8 ≤ m) : controlReg m = none := by
  unfold controlReg
  split <;> first | omega | rfl

theorem windowEntry_some {base n m : Nat} (i : Fin n) (hm : m = base / 4 + i.val) :
    windowEntry base n m = some i := by
  have hi := i.isLt
  rw [windowEntry, dif_pos (by omega)]
  congr 1
  apply Fin.ext
  simp only
  omega

theorem windowEntry_none {base n m : Nat} (h : m < base / 4 ∨ base / 4 + n ≤ m) :
    windowEntry base n m = none := by
  rw [windowEntry, dif_neg (by omega)]

/-- A data window entry is neither CMD nor CTRL nor any other control register. -/
theorem windowReg_cases {m : Nat} {r : HostReg} (h : windowReg m = some r) :
    (∃ i, r = .freg i) ∨ (∃ i, r = .pdeg i) ∨ (∃ w, r = .wdeg w) ∨ (∃ i, r = .errpos i) ∨
    (∃ i, r = .errloc i) ∨ (∃ i, r = .errmag i) ∨ (∃ i j, r = .pcoef i j) ∨
    (∃ w j, r = .wcoef w j) := by
  simp only [windowReg, Option.or_eq_some_iff, Option.map_eq_some_iff] at h
  rcases h with ⟨i, _, rfl⟩ | ⟨_, ⟨i, _, rfl⟩ | ⟨_, ⟨i, _, rfl⟩ | ⟨_, ⟨i, _, rfl⟩ | ⟨_, ⟨i, _, rfl⟩ |
    ⟨_, ⟨i, _, rfl⟩ | ⟨_, ⟨i, _, rfl⟩ | ⟨_, ⟨i, _, rfl⟩⟩⟩⟩⟩⟩⟩⟩ <;> simp

/-- CTRL and CMD are at one word number each. -/
theorem regOfWord_ctrl_iff (m : Nat) : regOfWord m = .ctrl ↔ m = 1 := by
  refine ⟨fun h => ?_, fun h => by rw [h]; rfl⟩
  by_cases hm : m < 8
  · interval_cases m <;> first | rfl | cases h
  · rw [regOfWord, controlReg_none (by omega), Option.none_or] at h
    cases hw : windowReg m with
    | none => rw [hw] at h; cases h
    | some r =>
      rw [hw, Option.getD_some] at h
      subst h
      simpa using windowReg_cases hw

theorem regOfWord_cmd_iff (m : Nat) : regOfWord m = .cmd ↔ m = 3 := by
  refine ⟨fun h => ?_, fun h => by rw [h]; rfl⟩
  by_cases hm : m < 8
  · interval_cases m <;> first | rfl | cases h
  · rw [regOfWord, controlReg_none (by omega), Option.none_or] at h
    cases hw : windowReg m with
    | none => rw [hw] at h; cases h
    | some r =>
      rw [hw, Option.getD_some] at h
      subst h
      simpa using windowReg_cases hw

theorem regOfWord_freg (i : Fin 16) : regOfWord (0x40 / 4 + i.val) = .freg i := by
  revert i; decide

theorem regOfWord_pdeg (i : Fin 16) : regOfWord (0x80 / 4 + i.val) = .pdeg i := by
  revert i; decide

theorem regOfWord_wdeg (w : Fin 5) : regOfWord (0xC0 / 4 + w.val) = .wdeg w := by
  revert w; decide

theorem regOfWord_errpos (i : Fin 58) : regOfWord (0x100 / 4 + i.val) = .errpos i := by
  revert i; decide

theorem regOfWord_errloc (i : Fin 58) : regOfWord (0x200 / 4 + i.val) = .errloc i := by
  revert i; decide

theorem regOfWord_errmag (i : Fin 58) : regOfWord (0x300 / 4 + i.val) = .errmag i := by
  revert i; decide

/-- Above the small windows only the coefficient windows are left. -/
theorem regOfWord_of_ge {m : Nat} (h : 0x4000 / 4 ≤ m) : regOfWord m =
    (((windowEntry 0x4000 (16 * 128) m).map fun e =>
      HostReg.pcoef ⟨e.val / 128, by omega⟩ ⟨e.val % 128, by omega⟩).or
    ((windowEntry 0x6000 (5 * 128) m).map fun e =>
      HostReg.wcoef ⟨e.val / 128, by omega⟩ ⟨e.val % 128, by omega⟩)).getD .unmapped := by
  rw [regOfWord, controlReg_none (by omega), windowReg, windowEntry_none (base := 0x40) (by omega),
    windowEntry_none (base := 0x80) (by omega), windowEntry_none (base := 0xC0) (by omega),
    windowEntry_none (base := 0x100) (by omega), windowEntry_none (base := 0x200) (by omega),
    windowEntry_none (base := 0x300) (by omega)]
  rfl

theorem regOfWord_pcoef (r : Fin 16) (j : Fin 128) :
    regOfWord (0x4000 / 4 + (128 * r.val + j.val)) = .pcoef r j := by
  rw [regOfWord_of_ge (by omega),
    windowEntry_some (⟨128 * r.val + j.val, by omega⟩ : Fin (16 * 128)) rfl]
  simp only [Option.map_some, Option.some_or, Option.getD_some, HostReg.pcoef.injEq, Fin.ext_iff]
  omega

theorem regOfWord_wcoef (w : Fin 5) (j : Fin 128) :
    regOfWord (0x6000 / 4 + (128 * w.val + j.val)) = .wcoef w j := by
  rw [regOfWord_of_ge (by omega), windowEntry_none (base := 0x4000) (by omega),
    windowEntry_some (⟨128 * w.val + j.val, by omega⟩ : Fin (5 * 128)) rfl]
  simp only [Option.map_some, Option.map_none, Option.none_or, Option.getD_some,
    HostReg.wcoef.injEq, Fin.ext_iff]
  omega

end Sys2Proof.Machine
end

