-- ==== Sys2Proof/Laws/Decode.lean ====
section
/-! SUPPORT. The fields of a packed word, and when a field of a word is 0. -/

namespace Sys2Proof

theorem toNat_pack {op : Nat} (d a b : Fin 16) {low : Nat} (hop : op < 64) (hlow : low < 2 ^ 14) :
    (pack op d a b low).toNat =
      op * 2 ^ 26 + d.val * 2 ^ 22 + a.val * 2 ^ 18 + b.val * 2 ^ 14 + low := by
  rw [pack, BitVec.toNat_ofNat, Nat.mod_eq_of_lt (by omega)]

theorem bits_pack_op {op : Nat} (d a b : Fin 16) {low : Nat} (hop : op < 64) (hlow : low < 2 ^ 14) :
    bits (pack op d a b low) 31 26 = op := by
  rw [bits, toNat_pack d a b hop hlow]; omega

theorem regField_pack_d {op : Nat} (d a b : Fin 16) {low : Nat} (hop : op < 64)
    (hlow : low < 2 ^ 14) : regField (pack op d a b low) 22 = d := by
  apply Fin.ext; simp only [regField, bits, toNat_pack d a b hop hlow, Fin.val_ofNat]; omega

theorem regField_pack_a {op : Nat} (d a b : Fin 16) {low : Nat} (hop : op < 64)
    (hlow : low < 2 ^ 14) : regField (pack op d a b low) 18 = a := by
  apply Fin.ext; simp only [regField, bits, toNat_pack d a b hop hlow, Fin.val_ofNat]; omega

theorem regField_pack_b {op : Nat} (d a b : Fin 16) {low : Nat} (hop : op < 64)
    (hlow : low < 2 ^ 14) : regField (pack op d a b low) 14 = b := by
  apply Fin.ext; simp only [regField, bits, toNat_pack d a b hop hlow, Fin.val_ofNat]; omega

theorem regField_pack_c {op : Nat} (d a b c : Fin 16) (hop : op < 64) :
    regField (pack op d a b (cLow c)) 10 = c := by
  have hlow : cLow c < 2 ^ 14 := by rw [cLow]; omega
  apply Fin.ext
  simp only [regField, bits, toNat_pack d a b hop hlow, Fin.val_ofNat]
  rw [cLow]; omega

theorem immField_pack {op : Nat} (d a b : Fin 16) (imm : BitVec 14) (hop : op < 64) :
    immField (pack op d a b imm.toNat) = imm := by
  have h := imm.isLt
  apply BitVec.eq_of_toNat_eq
  simp only [immField, bits, toNat_pack d a b hop h, BitVec.toNat_ofNat]; omega

theorem opcode_lt (i : Instr) : i.opcode < 64 := by cases i <;> simp [Instr.opcode]

/-- Every word is the packing of its fields. -/
theorem eq_pack (w : Word) : w = pack (bits w 31 26) (regField w 22) (regField w 18) (regField w 14)
    (immField w).toNat := by
  have hw := w.isLt
  apply BitVec.eq_of_toNat_eq
  rw [toNat_pack _ _ _ (by rw [bits]; omega) (immField w).isLt]
  simp only [regField, immField, bits, Fin.val_ofNat, BitVec.toNat_ofNat]
  omega

/-- A field is 0 exactly when its bits are. -/
theorem bits_eq_zero_iff (w : Word) (hi lo : Nat) :
    bits w hi lo = 0 ↔ ∀ i, lo ≤ i → i ≤ hi → w.getLsbD i = false := by
  have hbit : ∀ i, (bits w hi lo).testBit i = (decide (i < hi + 1 - lo) && w.getLsbD (i + lo)) := by
    intro i; rw [bits, Nat.testBit_mod_two_pow, Nat.testBit_div_two_pow]; rfl
  constructor
  · intro h i h1 h2
    have := hbit (i - lo)
    rw [h, Nat.zero_testBit, Nat.sub_add_cancel h1] at this
    simpa [show i - lo < hi + 1 - lo by omega] using this.symm
  · intro h
    apply Nat.eq_of_testBit_eq
    intro i
    rw [hbit, Nat.zero_testBit]
    by_cases hi' : i < hi + 1 - lo
    · rw [h (i + lo) (by omega) (by omega), Bool.and_false]
    · rw [decide_eq_false hi', Bool.false_and]

theorem cLow_lt (c : Fin 16) : cLow c < 2 ^ 14 := by rw [cLow]; omega

end Sys2Proof
end

