-- ==== Sys2Proof/Laws/State.lean ====
section
/-! SUPPORT. One lemma for each field of State after each update of Machine/Ops.lean, true by rfl, so that no later
proof unfolds a record update. -/

namespace Sys2Proof.Machine

@[simp] theorem readF_eq (s : State) (i : FReg) : s.readF i = s.f[i] := rfl
@[simp] theorem readP_eq (s : State) (i : PReg) : s.readP i = s.p[i] := rfl

@[simp] theorem putF_f (s : State) (d : FReg) (v : Elem) : (s.putF d v).f = s.f.set d v := rfl
@[simp] theorem putF_p (s : State) (d : FReg) (v : Elem) : (s.putF d v).p = s.p := rfl
@[simp] theorem putF_z (s : State) (d : FReg) (v : Elem) : (s.putF d v).z = zOfElem v := rfl
@[simp] theorem putF_cfg (s : State) (d : FReg) (v : Elem) : (s.putF d v).cfg = s.cfg := rfl
@[simp] theorem putF_bm (s : State) (d : FReg) (v : Elem) : (s.putF d v).bm = s.bm := rfl
@[simp] theorem putF_errs (s : State) (d : FReg) (v : Elem) : (s.putF d v).errs = s.errs := rfl
@[simp] theorem putF_err (s : State) (d : FReg) (v : Elem) : (s.putF d v).err = s.err := rfl
@[simp] theorem putF_ecode (s : State) (d : FReg) (v : Elem) : (s.putF d v).ecode = s.ecode := rfl
@[simp] theorem putF_ovr (s : State) (d : FReg) (v : Elem) : (s.putF d v).ovr = s.ovr := rfl
@[simp] theorem putF_errcmd (s : State) (d : FReg) (v : Elem) : (s.putF d v).errcmd = s.errcmd := rfl
@[simp] theorem putF_activity (s : State) (d : FReg) (v : Elem) : (s.putF d v).activity = s.activity := rfl
@[simp] theorem putF_agenda (s : State) (d : FReg) (v : Elem) : (s.putF d v).agenda = s.agenda := rfl
@[simp] theorem putF_busData (s : State) (d : FReg) (v : Elem) : (s.putF d v).busData = s.busData := rfl
@[simp] theorem putF_draws (s : State) (d : FReg) (v : Elem) : (s.putF d v).draws = s.draws := rfl

@[simp] theorem putP_f (s : State) (d : PReg) (q : Poly) : (s.putP d q).f = s.f := rfl
@[simp] theorem putP_p (s : State) (d : PReg) (q : Poly) : (s.putP d q).p = s.p.set d q := rfl
@[simp] theorem putP_z (s : State) (d : PReg) (q : Poly) : (s.putP d q).z = zOfPoly q := rfl
@[simp] theorem putP_cfg (s : State) (d : PReg) (q : Poly) : (s.putP d q).cfg = s.cfg := rfl
@[simp] theorem putP_bm (s : State) (d : PReg) (q : Poly) : (s.putP d q).bm = s.bm := rfl
@[simp] theorem putP_errs (s : State) (d : PReg) (q : Poly) : (s.putP d q).errs = s.errs := rfl
@[simp] theorem putP_err (s : State) (d : PReg) (q : Poly) : (s.putP d q).err = s.err := rfl
@[simp] theorem putP_ecode (s : State) (d : PReg) (q : Poly) : (s.putP d q).ecode = s.ecode := rfl
@[simp] theorem putP_ovr (s : State) (d : PReg) (q : Poly) : (s.putP d q).ovr = s.ovr := rfl
@[simp] theorem putP_errcmd (s : State) (d : PReg) (q : Poly) : (s.putP d q).errcmd = s.errcmd := rfl
@[simp] theorem putP_activity (s : State) (d : PReg) (q : Poly) : (s.putP d q).activity = s.activity := rfl
@[simp] theorem putP_agenda (s : State) (d : PReg) (q : Poly) : (s.putP d q).agenda = s.agenda := rfl
@[simp] theorem putP_busData (s : State) (d : PReg) (q : Poly) : (s.putP d q).busData = s.busData := rfl
@[simp] theorem putP_draws (s : State) (d : PReg) (q : Poly) : (s.putP d q).draws = s.draws := rfl

@[simp] theorem raise_f (s : State) (w : Word) (k : FaultKind) : (s.raise w k).f = s.f := rfl
@[simp] theorem raise_p (s : State) (w : Word) (k : FaultKind) : (s.raise w k).p = s.p := rfl
@[simp] theorem raise_z (s : State) (w : Word) (k : FaultKind) : (s.raise w k).z = s.z := rfl
@[simp] theorem raise_cfg (s : State) (w : Word) (k : FaultKind) : (s.raise w k).cfg = s.cfg := rfl
@[simp] theorem raise_bm (s : State) (w : Word) (k : FaultKind) : (s.raise w k).bm = s.bm := rfl
@[simp] theorem raise_errs (s : State) (w : Word) (k : FaultKind) : (s.raise w k).errs = s.errs := rfl
@[simp] theorem raise_err (s : State) (w : Word) (k : FaultKind) : (s.raise w k).err = true := rfl
@[simp] theorem raise_ecode (s : State) (w : Word) (k : FaultKind) : (s.raise w k).ecode = k.code := rfl
@[simp] theorem raise_ovr (s : State) (w : Word) (k : FaultKind) : (s.raise w k).ovr = s.ovr := rfl
@[simp] theorem raise_errcmd (s : State) (w : Word) (k : FaultKind) : (s.raise w k).errcmd = w := rfl
@[simp] theorem raise_activity (s : State) (w : Word) (k : FaultKind) : (s.raise w k).activity = .idle := rfl
@[simp] theorem raise_agenda (s : State) (w : Word) (k : FaultKind) : (s.raise w k).agenda = s.agenda := rfl
@[simp] theorem raise_busData (s : State) (w : Word) (k : FaultKind) : (s.raise w k).busData = s.busData := rfl
@[simp] theorem raise_draws (s : State) (w : Word) (k : FaultKind) : (s.raise w k).draws = s.draws := rfl

@[simp] theorem clearErr_f (s : State) : s.clearErr.f = s.f := rfl
@[simp] theorem clearErr_p (s : State) : s.clearErr.p = s.p := rfl
@[simp] theorem clearErr_z (s : State) : s.clearErr.z = s.z := rfl
@[simp] theorem clearErr_cfg (s : State) : s.clearErr.cfg = s.cfg := rfl
@[simp] theorem clearErr_bm (s : State) : s.clearErr.bm = s.bm := rfl
@[simp] theorem clearErr_errs (s : State) : s.clearErr.errs = s.errs := rfl
@[simp] theorem clearErr_err (s : State) : s.clearErr.err = false := rfl
@[simp] theorem clearErr_ecode (s : State) : s.clearErr.ecode = 0 := rfl
@[simp] theorem clearErr_ovr (s : State) : s.clearErr.ovr = false := rfl
@[simp] theorem clearErr_errcmd (s : State) : s.clearErr.errcmd = 0 := rfl
@[simp] theorem clearErr_activity (s : State) : s.clearErr.activity = s.activity := rfl
@[simp] theorem clearErr_agenda (s : State) : s.clearErr.agenda = s.agenda := rfl
@[simp] theorem clearErr_busData (s : State) : s.clearErr.busData = s.busData := rfl
@[simp] theorem clearErr_draws (s : State) : s.clearErr.draws = s.draws := rfl

@[simp] theorem retire_f (s : State) : s.retire.f = s.f := rfl
@[simp] theorem retire_p (s : State) : s.retire.p = s.p := rfl
@[simp] theorem retire_z (s : State) : s.retire.z = s.z := rfl
@[simp] theorem retire_cfg (s : State) : s.retire.cfg = s.cfg := rfl
@[simp] theorem retire_bm (s : State) : s.retire.bm = s.bm := rfl
@[simp] theorem retire_errs (s : State) : s.retire.errs = s.errs := rfl
@[simp] theorem retire_err (s : State) : s.retire.err = s.err := rfl
@[simp] theorem retire_ecode (s : State) : s.retire.ecode = s.ecode := rfl
@[simp] theorem retire_ovr (s : State) : s.retire.ovr = s.ovr := rfl
@[simp] theorem retire_errcmd (s : State) : s.retire.errcmd = s.errcmd := rfl
@[simp] theorem retire_activity (s : State) : s.retire.activity = .idle := rfl
@[simp] theorem retire_agenda (s : State) : s.retire.agenda = s.agenda := rfl
@[simp] theorem retire_busData (s : State) : s.retire.busData = s.busData := rfl
@[simp] theorem retire_draws (s : State) : s.retire.draws = s.draws := rfl

@[simp] theorem beginReset_f (s : State) : s.beginReset.f = s.f := rfl
@[simp] theorem beginReset_p (s : State) : s.beginReset.p = s.p := rfl
@[simp] theorem beginReset_z (s : State) : s.beginReset.z = s.z := rfl
@[simp] theorem beginReset_cfg (s : State) : s.beginReset.cfg = s.cfg := rfl
@[simp] theorem beginReset_bm (s : State) : s.beginReset.bm = s.bm := rfl
@[simp] theorem beginReset_errs (s : State) : s.beginReset.errs = s.errs := rfl
@[simp] theorem beginReset_err (s : State) : s.beginReset.err = s.err := rfl
@[simp] theorem beginReset_ecode (s : State) : s.beginReset.ecode = s.ecode := rfl
@[simp] theorem beginReset_ovr (s : State) : s.beginReset.ovr = s.ovr := rfl
@[simp] theorem beginReset_errcmd (s : State) : s.beginReset.errcmd = s.errcmd := rfl
@[simp] theorem beginReset_activity (s : State) : s.beginReset.activity = .resetting := rfl
@[simp] theorem beginReset_agenda (s : State) : s.beginReset.agenda = s.agenda := rfl
@[simp] theorem beginReset_busData (s : State) : s.beginReset.busData = s.busData := rfl
@[simp] theorem beginReset_draws (s : State) : s.beginReset.draws = s.draws := rfl

@[simp] theorem finishReset_f (s : State) : s.finishReset.f = State.reset.f := rfl
@[simp] theorem finishReset_p (s : State) : s.finishReset.p = State.reset.p := rfl
@[simp] theorem finishReset_z (s : State) : s.finishReset.z = State.reset.z := rfl
@[simp] theorem finishReset_cfg (s : State) : s.finishReset.cfg = State.reset.cfg := rfl
@[simp] theorem finishReset_bm (s : State) : s.finishReset.bm = State.reset.bm := rfl
@[simp] theorem finishReset_errs (s : State) : s.finishReset.errs = State.reset.errs := rfl
@[simp] theorem finishReset_err (s : State) : s.finishReset.err = State.reset.err := rfl
@[simp] theorem finishReset_ecode (s : State) : s.finishReset.ecode = State.reset.ecode := rfl
@[simp] theorem finishReset_ovr (s : State) : s.finishReset.ovr = State.reset.ovr := rfl
@[simp] theorem finishReset_errcmd (s : State) : s.finishReset.errcmd = State.reset.errcmd := rfl
@[simp] theorem finishReset_activity (s : State) : s.finishReset.activity = State.reset.activity := rfl
@[simp] theorem finishReset_agenda (s : State) : s.finishReset.agenda = s.agenda := rfl
@[simp] theorem finishReset_busData (s : State) : s.finishReset.busData = s.busData := rfl
@[simp] theorem finishReset_draws (s : State) : s.finishReset.draws = s.draws := rfl

end Sys2Proof.Machine
end

