-- ==== Sys2Proof/Laws/Ops.lean ====
section
/-! SUPPORT. What each shared operation does, said once in the terms of Safety.lean. -/

namespace Sys2Proof.Machine

theorem writesF_putF (s : State) (d : FReg) (v : Elem) : WritesF s (s.putF d v) d v := by
  refine ⟨rfl, by simp, fun r hr => ?_, by simp [zOfElem]⟩
  simp [Fin.val_ne_of_ne (Ne.symm hr)]

theorem copiesP_putP (s : State) (d : PReg) (q : Poly) : CopiesP s (s.putP d q) d q := by
  refine ⟨rfl, by simp, fun r hr => ?_, ?_⟩
  · simp [Fin.val_ne_of_ne (Ne.symm hr)]
  · rw [putP_z, zOfPoly, isZero_iff_lt]

/-- Writing a canonical polynomial writes its coefficients. -/
theorem writesP_putP (s : State) (d : PReg) {q : Poly} {coef : Nat → Elem} (hq : q.Canonical)
    (hc : ∀ j, j < 128 → q.coeff j = coef j) : WritesP s (s.putP d q) d coef := by
  obtain ⟨h1, h2, h3, h4⟩ := copiesP_putP s d q
  refine ⟨h1, by rw [h2]; exact hq, fun j hj => by rw [h2, hc j hj], h3, h4.trans ?_⟩
  exact forall₂_congr fun j hj => by rw [hc j hj]

theorem writesP_putP_canon (s : State) (d : PReg) (coef : Nat → Elem) :
    WritesP s (s.putP d (canon coef)) d coef :=
  writesP_putP s d (canonical_canon coef) fun _ hj => coeff_canon_lt coef hj

theorem recordsFault_raise (s : State) (w : Word) (k : FaultKind) :
    RecordsFault s (s.raise w k) w k.code := rfl

theorem busy_iff (s : State) : s.busy = true ↔ s.activity ≠ .idle := by
  rw [State.busy]; cases s.activity <;> simp

/-- A CMD write either is discarded, setting OVR, or is in flight (20_memory.md R56). -/
theorem issue_cases (s : State) (w : Word) :
    ((s.activity ≠ .idle ∨ s.err = true) ∧ s.issue w = { s with ovr := true }) ∨
    (s.activity = .idle ∧ s.err = false ∧ s.issue w = { s with activity := .command w }) := by
  rw [State.issue]
  by_cases hb : s.activity = .idle
  · have hb' : s.busy = false := by rw [State.busy, hb]
    cases he : s.err
    · right; simp [hb, hb']
    · left; simp
  · left
    exact ⟨.inl hb, by rw [(busy_iff s).2 hb]; rfl⟩

/-- A CTRL write begins a reset, clears the fault record, or does nothing (10_state.md R32). -/
theorem writeCtrl_cases (s : State) (v : Word) :
    (v.getLsbD 0 = true ∧ s.writeCtrl v = s.beginReset) ∨
    (v.getLsbD 0 = false ∧ v.getLsbD 1 = true ∧ s.writeCtrl v = s.clearErr) ∨
    (v.getLsbD 0 = false ∧ v.getLsbD 1 = false ∧ s.writeCtrl v = s) := by
  rw [State.writeCtrl]
  cases v.getLsbD 0 <;> cases v.getLsbD 1 <;> simp

/-- A host read changes nothing but the bus word and the draw counter (20_memory.md R62). -/
theorem hostRead_frame (s : State) (addr : BitVec 16) :
    s.hostRead addr = { s with
      busData := (s.hostRead addr).busData, draws := (s.hostRead addr).draws } := by
  rw [State.hostRead]
  split <;> rfl

/-- What a host access can do: nothing to the core, set OVR, accept a command, begin a reset, clear the record. -/
theorem hostAct_cases (s : State) (op : HostOp) :
    (∃ b n, s.hostAct op = { s with busData := b, draws := n }) ∨
    (∃ w, s.hostAct op = s.issue w) ∨ s.hostAct op = s.beginReset ∨ s.hostAct op = s.clearErr := by
  cases op with
  | read addr => exact .inl ⟨_, _, hostRead_frame s addr⟩
  | resetInput => exact .inr (.inr (.inl rfl))
  | write addr v =>
    have hw : s.hostAct (.write addr v) = s.hostWrite addr v := rfl
    rw [hw, State.hostWrite]
    split
    · exact .inr (.inl ⟨v, rfl⟩)
    · rcases writeCtrl_cases s v with ⟨_, h⟩ | ⟨_, _, h⟩ | ⟨_, _, h⟩
      · exact .inr (.inr (.inl h))
      · exact .inr (.inr (.inr h))
      · exact .inl ⟨_, _, h⟩
    · exact .inl ⟨_, _, rfl⟩

/-- The faults the core raises have the codes 1 to 7 (60_exceptions.md R230, R232). -/
theorem code_le_seven_iff (k : FaultKind) :
    k.code.toNat ≤ 7 ↔ k ≠ .messageTooLong ∧ k ≠ .invalidSymbol ∧ k ≠ .uncorrectableError := by
  cases k <;> decide

theorem code_pos (k : FaultKind) : 1 ≤ k.code.toNat := by cases k <;> decide

end Sys2Proof.Machine
end

