-- ==== Sys2Proof/Laws/Roots.lean ====
section
/-! SUPPORT. The root list, the error list it gives (10_state.md R29, R30), Forney's products, and the error
polynomial. -/

namespace Sys2Proof.Machine

open scoped Fin.CommRing

theorem mem_rootExponents (q : Poly) (l : Nat) :
    l ∈ rootExponents q ↔ (1 ≤ l ∧ l ≤ 58) ∧ q.eval (pow2 l) = 0 := by
  simp only [rootExponents, List.mem_filter, List.mem_range'_1, decide_eq_true_iff]
  exact and_congr_left fun _ => by omega

theorem rootExponents_sorted (q : Poly) : (rootExponents q).Pairwise (· < ·) :=
  (List.pairwise_lt_range' (s := 1) (n := 58)).filter _

theorem rootExponents_length (q : Poly) : (rootExponents q).length ≤ 58 :=
  (List.length_filter_le _ _).trans (by simp)

/-- The error list of a root list, entry by entry. -/
theorem errListOf_entry {ls : List Nat} (h : ls.length ≤ 58) (hm : ∀ l ∈ ls, 1 ≤ l ∧ l ≤ 58)
    (i : Fin 58) :
    (errListOf ls).cnt.val = ls.length ∧
    (∀ hi : i.val < ls.length, (errListOf ls).pos[i].val = 58 - ls[i.val] ∧
      (errListOf ls).loc[i] = pow2 (58 - ls[i.val])) ∧
    (ls.length ≤ i.val → (errListOf ls).pos[i] = 0 ∧ (errListOf ls).loc[i] = 0) ∧
    (errListOf ls).mag[i] = 0 := by
  refine ⟨?_, fun hi => ?_, fun hi => ?_, ?_⟩
  · simp [errListOf, Nat.mod_eq_of_lt (show ls.length < 59 by omega)]
  · have := hm _ (List.getElem_mem hi)
    simp [errListOf, hi, Nat.mod_eq_of_lt (show 58 - ls[i.val] < 58 by omega)]
  · have : ls[i.val]? = none := List.getElem?_eq_none hi
    simp [errListOf, this]
  · simp [errListOf]

/-- The error list RSROOT writes is sound (10_state.md R29, R30). -/
theorem errListOf_sound {ls : List Nat} (h : ls.length ≤ 58) (hm : ∀ l ∈ ls, 1 ≤ l ∧ l ≤ 58)
    (hs : ls.Pairwise (· < ·)) : (errListOf ls).Sound := by
  have hcnt : (errListOf ls).cnt.val = ls.length := (errListOf_entry h hm 0).1
  refine ⟨fun i hi => ?_, fun i hi => ?_, fun i j hij hj => ?_⟩
  · obtain ⟨_, _, h0, hmag⟩ := errListOf_entry h hm i
    rw [hcnt] at hi
    exact ⟨(h0 hi).1, (h0 hi).2, hmag⟩
  · rw [hcnt] at hi
    obtain ⟨hp, hl⟩ := (errListOf_entry h hm i).2.1 hi
    rw [hp, hl]
  · rw [hcnt] at hj
    have hi : i.val < ls.length := by omega
    have hlt := List.pairwise_iff_getElem.1 hs i.val j.val hi hj hij
    have hb := hm _ (List.getElem_mem hj)
    rw [Fin.lt_def, ((errListOf_entry h hm i).2.1 hi).1, ((errListOf_entry h hm j).2.1 hj).1]
    omega

theorem rsroot_sound (q : Poly) : (errListOf (rootExponents q)).Sound :=
  errListOf_sound (rootExponents_length q) (fun l hl => ((mem_rootExponents q l).1 hl).1)
    (rootExponents_sorted q)

/-- In a sound list, two locations below ERRCNT are different and nonzero (10_state.md R30). -/
theorem sound_loc {e : ErrList} (h : e.Sound) {i m : Fin 58} (hi : i.val < e.cnt.val)
    (hm : m.val < e.cnt.val) : e.loc[i] ≠ 0 ∧ (m ≠ i → e.loc[m] ≠ e.loc[i]) := by
  obtain ⟨_, hloc, hpos⟩ := h
  rw [hloc i hi, hloc m hm]
  refine ⟨pow2_ne_zero _, fun hne heq => ?_⟩
  have := pow2_injective_below_58 _ _ heq
  rcases lt_or_gt_of_ne hne with hlt | hlt
  · exact absurd this (ne_of_gt (hpos m i hlt hi))
  · exact absurd this.symm (ne_of_gt (hpos i m hlt hm))

/-- A Forney product is 0 only if one of its factors is. -/
theorem forneyProduct_ne_zero {loc : Vector Elem 58} {i : Fin 58} {xi : Elem} {n : Nat}
    (h : ∀ m : Fin 58, m.val < n → m ≠ i → (1 : Elem) - loc[m] * xi ≠ 0) :
    forneyProduct loc i xi n ≠ 0 := by
  induction n with
  | zero => exact one_ne_zero
  | succ n ih =>
    have hrest := ih fun m hm => h m (by omega)
    rw [forneyProduct]
    split
    · next hn =>
      split
      · exact hrest
      · next hne =>
        rw [Ne, elem_mul_eq_zero, not_or]
        exact ⟨hrest, h ⟨n, hn⟩ (by simp) fun heq => hne (by rw [← heq])⟩
    · exact hrest

/-- In a sound list RSFORNEY needs no inverse of 0 (44_roots_forney.md R211). -/
theorem sound_noInverseAt {e : ErrList} (h : e.Sound) (i : Fin 58) : e.noInverseAt i = false := by
  rw [ErrList.noInverseAt]
  by_cases hi : i.val < e.cnt.val
  · have h0 := (sound_loc h hi hi).1
    have hp : e.product i ≠ 0 := by
      apply forneyProduct_ne_zero
      intro m hm hne hz
      have hz' : e.loc[m] * invElem e.loc[i] = 1 := (sub_eq_zero.1 hz).symm
      apply (sound_loc h hi hm).2 hne
      calc e.loc[m] = e.loc[m] * (e.loc[i] * invElem e.loc[i]) := by rw [mul_invElem h0, mul_one]
        _ = e.loc[m] * invElem e.loc[i] * e.loc[i] := by ring
        _ = e.loc[i] := by rw [hz', one_mul]
    rw [decide_eq_false h0, decide_eq_false hp, Bool.or_self, Bool.and_false]
  · rw [decide_eq_false hi, Bool.false_and]

/-- The error polynomial of a list whose positions are distinct: ERRMAG at each position, 0 elsewhere. -/
theorem errPolyCoeff_spec {e : ErrList} (h : e.Sound) (j : Nat) (n : Nat) (hn : n ≤ e.cnt.val) :
    (∀ i : Fin 58, i.val < n → e.pos[i].val = j → errPolyCoeff e j n = e.mag[i]) ∧
    ((∀ i : Fin 58, i.val < n → e.pos[i].val ≠ j) → errPolyCoeff e j n = 0) := by
  have hcnt := e.cnt.isLt
  induction n with
  | zero => exact ⟨fun i hi => absurd hi (by omega), fun _ => rfl⟩
  | succ n ih =>
    have hn58 : n < 58 := by omega
    obtain ⟨ih1, ih2⟩ := ih (by omega)
    rw [errPolyCoeff, dif_pos hn58]
    constructor
    · intro i hi hp
      by_cases heq : i.val = n
      · have hfin : i = ⟨n, hn58⟩ := Fin.ext heq
        subst hfin
        exact if_pos hp
      · have hlt := h.2.2 i ⟨n, hn58⟩ (by rw [Fin.lt_def]; simp; omega) (by simpa using hn)
        have hne : e.pos[n].val ≠ j := by
          have : e.pos[n].val < e.pos[i].val := hlt
          omega
        rw [if_neg hne]
        exact ih1 i (by omega) hp
    · intro hne
      have hn' : e.pos[n].val ≠ j := hne ⟨n, hn58⟩ (by simp)
      rw [if_neg hn']
      exact ih2 fun i hi => hne i (by omega)

end Sys2Proof.Machine
end

