-- ==== Sys2Proof/Laws/Exec.lean ====
section
/-! SUPPORT. Once and for all, what executing a command can do: it records a fault of its own word, or it completes
in one of the ten ways of `Completes`. -/

namespace Sys2Proof.Machine

/-- Command `i` completes at `s` with the state `t`: what it writes, and what is known of the values written. -/
inductive Completes (s : State) : Instr → State → Prop
  | nothing : Completes s .nop s
  | field {i : Instr} (d : FReg) (v : Elem) (hd : destF i = some d) : Completes s i (s.putF d v)
  | poly {i : Instr} (d : PReg) (q : Poly) (hd : destP i = [d])
      (hq : s.PolysCanonical → q.Canonical) : Completes s i (s.putP d q)
  | flag {i : Instr} (z : Bool) (hi : (∃ a b, i = .feq a b) ∨ ∃ a b, i = .peq a b) :
      Completes s i { s with z := z }
  | division (d c a b : PReg) (q r : Poly) (hq : q.Canonical) (hr : r.Canonical) :
      Completes s (.pdivmod d c a b) { s with p := (s.p.set d q).set c r, z := zOfPoly r }
  | config (n k : BitVec 7) (g : RsConfig) (hg : g.Legal) :
      Completes s (.rscfg n k) { s with cfg := g }
  | solver {i : Instr} (b : BmState) (hi : (∃ a, i = .bminit a) ∨ i = .bmstep)
      (hb : s.bm.Bounded → b.Bounded) (hc : s.PolysCanonical → ∀ w, (b.work w).Canonical) :
      Completes s i { s with bm := b }
  | solved (d c a : PReg) (b : BmState) (hb : b.Bounded)
      (hc : s.PolysCanonical → ∀ w, (b.work w).Canonical) :
      Completes s (.rsbm d c a) { s with bm := b, p := (s.p.set d b.sig).set c b.om }
  | roots (a : PReg) (e : ErrList) (he : e.Sound) :
      Completes s (.rsroot a) { s with errs := e, z := zOfCount e.cnt }
  | magnitudes (a : PReg) (m : Vector Elem 58)
      (hm : ∀ i : Fin 58, s.errs.cnt.val ≤ i.val → m[i] = 0) :
      Completes s (.rsforney a) { s with errs := { s.errs with mag := m } }

/-- The two ways a command can end. -/
def Ends (s : State) (i : Instr) (r : Result) : Prop :=
  (∃ k : FaultKind, k.code.toNat ≤ 7 ∧ r = .next (s.raise (encode i) k)) ∨
  (∃ t, Completes s i t ∧ r = .next t)

theorem ends_raise (s : State) (i : Instr) {k : FaultKind} (h : k.code.toNat ≤ 7) :
    Ends s i (.next (s.raise (encode i) k)) := .inl ⟨k, h, rfl⟩

theorem ends_next {s t : State} {i : Instr} (h : Completes s i t) : Ends s i (.next t) :=
  .inr ⟨t, h, rfl⟩

theorem ends_pushOnto (s : State) {i : Instr} {d : PReg} (v : Elem) (hd : destP i = [d]) :
    Ends s i (.next (s.pushOnto (encode i) d v)) := by
  rw [State.pushOnto]
  split
  · exact ends_raise s i (by decide)
  · exact ends_next (.poly d _ hd fun _ => canonical_canon _)

/-- A legal pair gives a legal configuration (10_state.md R26). -/
theorem legalConfig_legal {n k : BitVec 7} (h : legalConfig n k = true) : RsConfig.Legal
    { n := BitVec.ofNat 6 n.toNat, k := BitVec.ofNat 6 k.toNat
      nk := BitVec.ofNat 6 (n.toNat - k.toNat), cfgv := true } := by
  rw [legalConfig, decide_eq_true_iff] at h
  intro _
  simp only [BitVec.toNat_ofNat]
  rw [Nat.mod_eq_of_lt (by omega), Nat.mod_eq_of_lt (by omega), Nat.mod_eq_of_lt (by omega)]
  omega

/-- Every command ends in one of the two ways, the fault recording the command's own word. -/
theorem exec_ends (i : Instr) (s : State) : Ends s i (exec i s) := by
  cases i with
  | nop => exact ends_next .nothing
  | fli d imm =>
    show Ends s _ (execFli d imm s)
    rw [execFli]; split
    · exact ends_raise _ _ (by decide)
    · exact ends_next (.field _ _ rfl)
  | fdiv d a b =>
    show Ends s _ (execFdiv d a b s)
    rw [execFdiv]; split
    · exact ends_raise _ _ (by decide)
    · exact ends_next (.field _ _ rfl)
  | finv d a =>
    show Ends s _ (execFinv d a s)
    rw [execFinv]; split
    · exact ends_raise _ _ (by decide)
    · exact ends_next (.field _ _ rfl)
  | fpow d a imm =>
    show Ends s _ (execFpow d a imm s)
    rw [execFpow]; split
    · exact ends_next (.field _ _ rfl)
    · split
      · exact ends_raise _ _ (by decide)
      · exact ends_next (.field _ _ rfl)
  | fpowf d a b => exact ends_raise _ _ (by decide)
  | feq a b => exact ends_next (.flag _ (.inl ⟨a, b, rfl⟩))
  | peq a b => exact ends_next (.flag _ (.inr ⟨a, b, rfl⟩))
  | fmov | fadd | fsub | fneg | fmul | pgetc | peval => exact ends_next (.field _ _ rfl)
  | pclr d => exact ends_next (.poly _ _ rfl fun _ => canonical_zero)
  | pmov d a => exact ends_next (.poly _ _ rfl fun h => h.1 a)
  | bmget d sel => exact ends_next (.poly _ _ rfl fun h => h.2 sel)
  | padd | psub | pscale | pshr | rsepoly =>
    exact ends_next (.poly _ _ rfl fun _ => canonical_canon _)
  | ppush d a => exact ends_pushOnto _ _ rfl
  | ppushi d imm =>
    show Ends s _ (execPpushi d imm s)
    rw [execPpushi]; split
    · exact ends_raise _ _ (by decide)
    · exact ends_pushOnto _ _ rfl
  | psetc d a imm =>
    show Ends s _ (execPsetc d a imm s)
    rw [execPsetc]; split
    · exact ends_raise _ _ (by decide)
    · exact ends_next (.poly _ _ rfl fun _ => canonical_canon _)
  | pmul d a b =>
    show Ends s _ (execPmul d a b s)
    rw [execPmul]; split
    · exact ends_raise _ _ (by decide)
    · exact ends_next (.poly _ _ rfl fun _ => canonical_canon _)
  | pshl d a imm =>
    show Ends s _ (execPshl d a imm s)
    rw [execPshl]; split
    · exact ends_next (.poly _ _ rfl fun _ => canonical_zero)
    · split
      · exact ends_raise _ _ (by decide)
      · exact ends_next (.poly _ _ rfl fun _ => canonical_canon _)
  | pdivmod d c a b =>
    show Ends s _ (execPdivmod d c a b s)
    rw [execPdivmod]; split
    · exact ends_raise _ _ (by decide)
    · split
      · exact ends_raise _ _ (by decide)
      · obtain ⟨hq, hr⟩ := divMod_canonical (s.readP a) (s.readP b)
        exact ends_next (.division d c a b _ _ hq hr)
  | rscfg n k =>
    show Ends s _ (execRscfg n k s)
    rw [execRscfg]; split
    · next h => exact ends_next (.config n k _ (legalConfig_legal h))
    · exact ends_raise _ _ (by decide)
  | rssyn d a =>
    show Ends s _ (execRssyn d a s)
    rw [execRssyn]; split
    · exact ends_next (.poly _ _ rfl fun _ => canonical_canon _)
    · exact ends_raise _ _ (by decide)
  | bminit a =>
    exact ends_next (.solver _ (.inl ⟨a, rfl⟩) (fun _ => bmInit_bounded _)
      fun h => bmInit_canonical (h.1 a))
  | bmstep =>
    show Ends s _ (execBmstep s)
    rw [execBmstep]; split
    · exact ends_raise _ _ (by decide)
    · have hl := s.bm.l.isLt
      exact ends_next (.solver _ (.inr rfl) (fun h => bmStep_bounded h (by omega))
        fun h => bmStep_canonical (h.2 .s))
  | rsbm d c a =>
    show Ends s _ (execRsbm d c a s)
    rw [execRsbm]; split
    · exact ends_raise _ _ (by decide)
    · split
      · have hnk := s.cfg.nk.isLt
        exact ends_next (.solved d c a _
          (bmIterate_bounded _ (bmInit_bounded _) (by simp [bmInit]; omega)).1
          fun h => bmIterate_canonical _ (bmInit_canonical (h.1 a)))
      · exact ends_raise _ _ (by decide)
  | rsroot a => exact ends_next (.roots a _ (rsroot_sound _))
  | rsforney a =>
    show Ends s _ (execRsforney a s)
    rw [execRsforney]; split
    · exact ends_raise _ _ (by decide)
    · refine ends_next (.magnitudes a _ fun i hi => ?_)
      simp [ErrList.magnitudes, Nat.not_lt.2 hi]

/-- Every command answers a next state. -/
theorem exec_next (i : Instr) (s : State) : ∃ t, exec i s = .next t := by
  rcases exec_ends i s with ⟨k, _, h⟩ | ⟨t, _, h⟩ <;> exact ⟨_, h⟩

/-- A command that completes leaves the fault record, BUSY and the host's side as they were. -/
theorem completes_record {s t : State} {i : Instr} (h : Completes s i t) :
    t.err = s.err ∧ t.ecode = s.ecode ∧ t.ovr = s.ovr ∧ t.errcmd = s.errcmd ∧
    t.activity = s.activity ∧ t.agenda = s.agenda ∧ t.busData = s.busData ∧ t.draws = s.draws := by
  cases h <;> simp

end Sys2Proof.Machine
end

