-- ==== Sys2Proof/Laws/HostRun.lean ====
section
/-! SUPPORT. What a run needs (70_reset_and_hazards.md R274): a command does not look at the host's side or at BUSY, a
STATUS read shows BUSY, and a run taken event by event. -/

namespace Sys2Proof.Machine

/-- `s` with another activity and another host side. -/
def State.beside (s : State) (c : Activity) (evs : List Event) (data : Word) (n : Nat) : State :=
  { s with activity := c, agenda := evs, busData := data, draws := n }

/-- An answer with its next state mapped. -/
def mapNext (g : State → State) : Result → Result
  | .next t => .next (g t)
  | .fault r => .fault r
  | .refused r => .refused r

theorem mapNext_ite {P : Prop} [Decidable P] {g h : State → State} {x y x' y' : Result}
    (hx : mapNext g x' = mapNext h x) (hy : mapNext g y' = mapNext h y) :
    mapNext g (if P then x' else y') = mapNext h (if P then x else y) := by
  by_cases hP : P <;> simp [hP, hx, hy]

section
variable (s : State) (c : Activity) (evs : List Event) (data : Word) (n : Nat)

theorem putP_beside (d : PReg) (q : Poly) :
    mapNext State.retire (.next ((s.beside c evs data n).putP d q)) =
      mapNext (State.beside · .idle evs data n) (.next (s.putP d q)) := rfl

theorem pushOnto_beside (w : Word) (d : PReg) (v : Elem) :
    mapNext State.retire (.next ((s.beside c evs data n).pushOnto w d v)) =
      mapNext (State.beside · .idle evs data n) (.next (s.pushOnto w d v)) := by
  simp only [State.pushOnto]
  by_cases h : (!(s.readP d).isZero && decide ((s.readP d).deg = 127)) = true
  · rw [if_pos h, if_pos (by exact h)]; rfl
  · rw [if_neg h, if_neg (by exact h)]; rfl

/-- A command's result, once BUSY has fallen, does not depend on the host's side or on BUSY before. -/
theorem exec_beside (i : Instr) :
    mapNext State.retire (exec i (s.beside c evs data n)) =
      mapNext (State.beside · .idle evs data n) (exec i s) := by
  cases i with
  | fli d imm =>
    show mapNext _ (execFli d imm _) = mapNext _ (execFli d imm s)
    rw [execFli, execFli]; cases elemOfImm imm <;> rfl
  | ppush d a => exact pushOnto_beside ..
  | ppushi d imm =>
    show mapNext _ (execPpushi d imm _) = mapNext _ (execPpushi d imm s)
    rw [execPpushi, execPpushi]
    cases elemOfImm imm
    · rfl
    · exact pushOnto_beside ..
  | fdiv d a b =>
    show mapNext _ (execFdiv d a b _) = mapNext _ (execFdiv d a b s)
    rw [execFdiv, execFdiv]; exact mapNext_ite rfl rfl
  | finv d a =>
    show mapNext _ (execFinv d a _) = mapNext _ (execFinv d a s)
    rw [execFinv, execFinv]; exact mapNext_ite rfl rfl
  | fpow d a imm =>
    show mapNext _ (execFpow d a imm _) = mapNext _ (execFpow d a imm s)
    rw [execFpow, execFpow]; exact mapNext_ite rfl (mapNext_ite rfl rfl)
  | psetc d a imm =>
    show mapNext _ (execPsetc d a imm _) = mapNext _ (execPsetc d a imm s)
    rw [execPsetc, execPsetc]; exact mapNext_ite rfl rfl
  | pmul d a b =>
    show mapNext _ (execPmul d a b _) = mapNext _ (execPmul d a b s)
    rw [execPmul, execPmul]; exact mapNext_ite rfl rfl
  | pclr d => exact putP_beside ..
  | pshl d a imm =>
    show mapNext _ (execPshl d a imm _) = mapNext _ (execPshl d a imm s)
    rw [execPshl, execPshl]
    exact mapNext_ite (putP_beside ..) (mapNext_ite rfl rfl)
  | pdivmod d e a b =>
    show mapNext _ (execPdivmod d e a b _) = mapNext _ (execPdivmod d e a b s)
    rw [execPdivmod, execPdivmod]; exact mapNext_ite rfl (mapNext_ite rfl rfl)
  | rscfg k m =>
    show mapNext _ (execRscfg k m _) = mapNext _ (execRscfg k m s)
    rw [execRscfg, execRscfg]; exact mapNext_ite rfl rfl
  | rssyn d a =>
    show mapNext _ (execRssyn d a _) = mapNext _ (execRssyn d a s)
    rw [execRssyn, execRssyn]; exact mapNext_ite rfl rfl
  | bmstep =>
    show mapNext _ (execBmstep _) = mapNext _ (execBmstep s)
    rw [execBmstep, execBmstep]; exact mapNext_ite rfl rfl
  | rsbm d e a =>
    show mapNext _ (execRsbm d e a _) = mapNext _ (execRsbm d e a s)
    rw [execRsbm, execRsbm]; exact mapNext_ite rfl (mapNext_ite rfl rfl)
  | rsforney a =>
    show mapNext _ (execRsforney a _) = mapNext _ (execRsforney a s)
    rw [execRsforney, execRsforney]; exact mapNext_ite rfl rfl
  | nop | fmov | fadd | fsub | fneg | fmul | fpowf | feq | pmov | pgetc | padd | psub | pscale | pshr
  | peval | peq | bminit | bmget | rsroot | rsepoly => rfl

end

/-- A read of STATUS shows BUSY in bit 0 (10_state.md R31), busy or not. -/
theorem hostRead_status_bit0 {s : State} {addr : BitVec 16} (h : regOfAddr addr = .status) :
    (s.hostRead addr).busData.getLsbD 0 = s.busy := by
  have hr : (s.hostRead addr).busData = s.statusWord := by
    rw [State.hostRead, h]; simp [HostReg.exactWhileBusy, State.regValue]
  rw [hr, State.statusWord, BitVec.getLsbD, BitVec.toNat_ofNat, Nat.testBit_eq_decide_div_mod_eq]
  cases s.busy <;> simp <;> omega

/-- A run goes on one event at a time: the event's step answers, and the host's side allows it. -/
theorem runOn_cons {v v' : RunView} {s t : State} {ev : Event} {evs : List Event}
    (h : runOn v s (ev :: evs) = some (v', t)) :
    ∃ u v1, step { s with agenda := [ev] } = .next u ∧ v.after u ev = some v1 ∧
      runOn v1 u evs = some (v', t) := by
  rw [runOn] at h
  split at h
  · next u hu =>
    split at h
    · next v1 hv => exact ⟨u, v1, hu, hv, h⟩
    · cases h
  · cases h
  · cases h

/-- A run starts with a reset in progress. -/
theorem hostRun_start {s t : State} {op : HostOp} {evs : List Event} {v : RunView}
    (h : hostRun s op evs = some (v, t)) :
    runOn RunView.start { s with agenda := [], activity := .resetting } evs = some (v, t) := by
  rw [hostRun] at h
  split at h
  · next hop =>
    have hs : step { s with agenda := [.host op] } =
        .next { s with agenda := [], activity := .resetting } := by
      cases op with
      | resetInput => rfl
      | read addr => cases hop
      | write addr data =>
        rw [HostOp.isReset, Bool.and_eq_true, decide_eq_true_eq] at hop
        show Host.Outcome.next (State.hostWrite _ addr data) = _
        rw [State.hostWrite, hop.1]
        simp only [State.writeCtrl, hop.2, if_true]
        rfl
    rw [hs] at h
    exact h
  · cases h

end Sys2Proof.Machine
end

