-- ==== Sys2Proof/Laws/PerInstr.lean ====
section
/-! SUPPORT. Statements for all instructions, one lemma for each constructor. EncodesOpcode: the op field of the
command word is the command's opcode (30_encoding.md R82, R86). -/

namespace Sys2Proof.Laws.EncodesOpcode

/-- The top six bits of the command word are the command's opcode. -/
def Statement (i : Instr) : Prop := bits (encode i) 31 26 = i.opcode

theorem nop : Statement .nop := bits_pack_op _ _ _ (opcode_lt _) (by decide)
theorem fli (d imm) : Statement (.fli d imm) := bits_pack_op _ _ _ (opcode_lt _) imm.isLt
theorem fmov (d a) : Statement (.fmov d a) := bits_pack_op _ _ _ (opcode_lt _) (by decide)
theorem fadd (d a b) : Statement (.fadd d a b) := bits_pack_op _ _ _ (opcode_lt _) (by decide)
theorem fsub (d a b) : Statement (.fsub d a b) := bits_pack_op _ _ _ (opcode_lt _) (by decide)
theorem fneg (d a) : Statement (.fneg d a) := bits_pack_op _ _ _ (opcode_lt _) (by decide)
theorem fmul (d a b) : Statement (.fmul d a b) := bits_pack_op _ _ _ (opcode_lt _) (by decide)
theorem fdiv (d a b) : Statement (.fdiv d a b) := bits_pack_op _ _ _ (opcode_lt _) (by decide)
theorem finv (d a) : Statement (.finv d a) := bits_pack_op _ _ _ (opcode_lt _) (by decide)
theorem fpow (d a imm) : Statement (.fpow d a imm) := bits_pack_op _ _ _ (opcode_lt _) imm.isLt
theorem fpowf (d a b) : Statement (.fpowf d a b) := bits_pack_op _ _ _ (opcode_lt _) (by decide)
theorem feq (a b) : Statement (.feq a b) := bits_pack_op _ _ _ (opcode_lt _) (by decide)
theorem pclr (d) : Statement (.pclr d) := bits_pack_op _ _ _ (opcode_lt _) (by decide)
theorem pmov (d a) : Statement (.pmov d a) := bits_pack_op _ _ _ (opcode_lt _) (by decide)
theorem ppush (d a) : Statement (.ppush d a) := bits_pack_op _ _ _ (opcode_lt _) (by decide)
theorem ppushi (d imm) : Statement (.ppushi d imm) := bits_pack_op _ _ _ (opcode_lt _) imm.isLt
theorem psetc (d a imm) : Statement (.psetc d a imm) := bits_pack_op _ _ _ (opcode_lt _) imm.isLt
theorem pgetc (d a imm) : Statement (.pgetc d a imm) := bits_pack_op _ _ _ (opcode_lt _) imm.isLt
theorem padd (d a b) : Statement (.padd d a b) := bits_pack_op _ _ _ (opcode_lt _) (by decide)
theorem psub (d a b) : Statement (.psub d a b) := bits_pack_op _ _ _ (opcode_lt _) (by decide)
theorem pmul (d a b) : Statement (.pmul d a b) := bits_pack_op _ _ _ (opcode_lt _) (by decide)
theorem pscale (d a b) : Statement (.pscale d a b) := bits_pack_op _ _ _ (opcode_lt _) (by decide)
theorem pshl (d a imm) : Statement (.pshl d a imm) := bits_pack_op _ _ _ (opcode_lt _) imm.isLt
theorem pshr (d a imm) : Statement (.pshr d a imm) := bits_pack_op _ _ _ (opcode_lt _) imm.isLt
theorem pdivmod (d c a b) : Statement (.pdivmod d c a b) := bits_pack_op _ _ _ (opcode_lt _) (cLow_lt c)
theorem peval (d a b) : Statement (.peval d a b) := bits_pack_op _ _ _ (opcode_lt _) (by decide)
theorem peq (a b) : Statement (.peq a b) := bits_pack_op _ _ _ (opcode_lt _) (by decide)
theorem rscfg (n k) : Statement (.rscfg n k) :=
  bits_pack_op _ _ _ (opcode_lt _) (by have := n.isLt; have := k.isLt; omega)
theorem rssyn (d a) : Statement (.rssyn d a) := bits_pack_op _ _ _ (opcode_lt _) (by decide)
theorem bminit (a) : Statement (.bminit a) := bits_pack_op _ _ _ (opcode_lt _) (by decide)
theorem bmstep : Statement .bmstep := bits_pack_op _ _ _ (opcode_lt _) (by decide)
theorem rsbm (d c a) : Statement (.rsbm d c a) := bits_pack_op _ _ _ (opcode_lt _) (cLow_lt c)
theorem bmget (d sel) : Statement (.bmget d sel) :=
  bits_pack_op _ _ _ (opcode_lt _) (by cases sel <;> decide)
theorem rsroot (a) : Statement (.rsroot a) := bits_pack_op _ _ _ (opcode_lt _) (by decide)
theorem rsforney (a) : Statement (.rsforney a) := bits_pack_op _ _ _ (opcode_lt _) (by decide)
theorem rsepoly (d) : Statement (.rsepoly d) := bits_pack_op _ _ _ (opcode_lt _) (by decide)

end Sys2Proof.Laws.EncodesOpcode
end

