-- ==== Sys2Proof/Tests/Slice0.lean ====
section
/-! SUPPORT. Tests. Words and expected values are those of spec/40_field.md to 44_roots_forney.md and
spec/95_test_vectors.md, written out by hand from them; the last part shows, for every obligation with hypotheses, a
state and operands that meet them together. -/

namespace Sys2Proof.Tests

open Sys2Proof.Machine

-- One theorem after the other, so that the checker's threads stay few.
set_option Elab.async false

/-! ## Helpers -/

/-- A polynomial listed highest degree first, as 95_test_vectors.md lists them. -/
def poly (l : List Elem) : Poly := canon (nthElem l.reverse)

/-- `x^j`. -/
def mono (j : Nat) : Poly := canon fun i => if i = j then 1 else 0

/-- The reset state with the given F registers. -/
def withF (l : List (FReg × Elem)) : State :=
  l.foldl (fun s e => { s with f := s.f.set e.1 e.2 }) State.reset

/-- The reset state with the given P registers. -/
def withP (l : List (PReg × Poly)) : State :=
  l.foldl (fun s e => { s with p := s.p.set e.1 e.2 }) State.reset

/-- One step of the command word `w` from `s` ends in a next state that passes `ok`. -/
def runs (w : Nat) (s : State) (ok : State → Bool) : Bool :=
  match step (s.withFetchWord 32 w) with
  | .next t => ok t
  | .fault _ => false
  | .refused _ => false

/-- One step of the command word `w` from `s` records the fault `code` for `w`, and leaves the F registers and Z. -/
def faults (w : Nat) (s : State) (code : BitVec 4) : Bool :=
  runs w s fun t => decide (t.err = true ∧ t.ecode = code ∧ t.errcmd = BitVec.ofNat 32 w ∧
    t.activity = .idle ∧ t.f = s.f ∧ t.z = s.z)

/-- The coefficients of `q` at the powers below the list's length are those of the list, highest first. -/
def low (q : Poly) (l : List Elem) : Bool :=
  decide ((List.range l.length).map q.coeff = l.reverse)

/-- The configuration of `RSCFG 7, 3`. -/
def cfg73 : RsConfig := { n := 7, k := 3, nk := 4, cfgv := true }

/-- The syndrome polynomial of the (7, 3) example with two errors. -/
def synd : Poly := poly [8, 8, 41, 53, 0]

/-- The error list of the (7, 3) example, with the given magnitudes. -/
def errs73 (y0 y1 : Elem) : ErrList :=
  { cnt := 2
    pos := ((Vector.replicate 58 0).set 0 5).set 1 1
    loc := ((Vector.replicate 58 0).set 0 32).set 1 2
    mag := ((Vector.replicate 58 0).set 0 y0).set 1 y1 }

/-! ## Well-formedness -/

theorem test_wellFormed_refuses_pdivmod_equal_destinations :
    (Instr.pdivmod 3 3 1 2).wellFormed = false := by decide

theorem test_wellFormed_refuses_rsbm_equal_destinations : (Instr.rsbm 2 2 1).wellFormed = false := by
  decide

theorem test_wellFormed_accepts_different_destinations :
    (Instr.pdivmod 3 4 1 2).wellFormed = true ∧ (Instr.rsbm 2 3 1).wellFormed = true := by decide

/-! ## Decoding: one word of every command, and what is refused -/

theorem test_decode_nop : decode 0x00000000 = .ok (.nop) := by rfl
theorem test_decode_fli : decode 0x0440003A = .ok (.fli 1 58) := by rfl
theorem test_decode_fmov : decode 0x08840000 = .ok (.fmov 2 1) := by rfl
theorem test_decode_fadd : decode 0x0CC48000 = .ok (.fadd 3 1 2) := by rfl
theorem test_decode_fsub : decode 0x10C48000 = .ok (.fsub 3 1 2) := by rfl
theorem test_decode_fneg : decode 0x14840000 = .ok (.fneg 2 1) := by rfl
theorem test_decode_fmul : decode 0x18C48000 = .ok (.fmul 3 1 2) := by rfl
theorem test_decode_fdiv : decode 0x1CC48000 = .ok (.fdiv 3 1 2) := by rfl
theorem test_decode_finv : decode 0x20840000 = .ok (.finv 2 1) := by rfl
theorem test_decode_fpow : decode 0x24C43FFF = .ok (.fpow 3 1 16383) := by rfl
theorem test_decode_fpowf : decode 0x28C48000 = .ok (.fpowf 3 1 2) := by rfl
theorem test_decode_feq : decode 0x2C048000 = .ok (.feq 1 2) := by rfl
theorem test_decode_pclr : decode 0x40400000 = .ok (.pclr 1) := by rfl
theorem test_decode_pmov : decode 0x44840000 = .ok (.pmov 2 1) := by rfl
theorem test_decode_ppush : decode 0x48480000 = .ok (.ppush 1 2) := by rfl
theorem test_decode_ppushi : decode 0x4C40003B = .ok (.ppushi 1 59) := by rfl
theorem test_decode_psetc : decode 0x5048003A = .ok (.psetc 1 2 58) := by rfl
theorem test_decode_pgetc : decode 0x550400C8 = .ok (.pgetc 4 1 200) := by rfl
theorem test_decode_padd : decode 0x58C48000 = .ok (.padd 3 1 2) := by rfl
theorem test_decode_psub : decode 0x5CC84000 = .ok (.psub 3 2 1) := by rfl
theorem test_decode_pmul : decode 0x60C48000 = .ok (.pmul 3 1 2) := by rfl
theorem test_decode_pscale : decode 0x64C48000 = .ok (.pscale 3 1 2) := by rfl
theorem test_decode_pshl : decode 0x6880000C = .ok (.pshl 2 0 12) := by rfl
theorem test_decode_pshr : decode 0x6CC40001 = .ok (.pshr 3 1 1) := by rfl
theorem test_decode_pdivmod : decode 0x70C49000 = .ok (.pdivmod 3 4 1 2) := by rfl
theorem test_decode_peval : decode 0x74C48000 = .ok (.peval 3 1 2) := by rfl
theorem test_decode_peq : decode 0x78048000 = .ok (.peq 1 2) := by rfl
theorem test_decode_rscfg : decode 0x80001D2E = .ok (.rscfg 58 46) := by rfl
theorem test_decode_rssyn : decode 0x84400000 = .ok (.rssyn 1 0) := by rfl
theorem test_decode_bminit : decode 0x88040000 = .ok (.bminit 1) := by rfl
theorem test_decode_bmstep : decode 0x8C000000 = .ok (.bmstep) := by rfl
theorem test_decode_rsbm : decode 0x90840C00 = .ok (.rsbm 2 3 1) := by rfl
theorem test_decode_bmget : decode 0x95400003 = .ok (.bmget 5 .tau) := by rfl
theorem test_decode_rsroot : decode 0x98080000 = .ok (.rsroot 2) := by rfl
theorem test_decode_rsforney : decode 0x9C0C0000 = .ok (.rsforney 3) := by rfl
theorem test_decode_rsepoly : decode 0xA1000000 = .ok (.rsepoly 4) := by rfl

/-- The remaining reserved opcode, reserved field, selector and destination cases of 30_encoding.md R80, R87, R88. -/
theorem test_decode_refuses :
    decode 0xFFFFFFFF = .error .reservedOpcode ∧ decode 0x7C000000 = .error .reservedOpcode ∧
    decode 0xA4000000 = .error .reservedOpcode ∧ decode 0x00000001 = .error .reservedBits ∧
    decode 0x08840001 = .error .reservedBits ∧ decode 0x90844C00 = .error .reservedBits ∧
    decode 0x95400005 = .error .selector ∧ decode 0x70C48C00 = .error .sameDestination ∧
    decode 0x90840800 = .error .sameDestination := by
  refine ⟨?_, ?_, ?_, ?_, ?_, ?_, ?_, ?_, ?_⟩ <;> rfl

theorem test_decodeTableWord_rscfg : decodeTableWord 32 0x80000383 = some (.rscfg 7 3) := by rfl

/-! ## One step of every command (95_test_vectors.md sections 2 to 4) -/

theorem test_step_nop_changes_nothing : (
    runs 0x00000000 (withF [(1, 5)]) fun t =>
      decide (t.f = (withF [(1, 5)]).f ∧ t.z = false ∧ t.activity = .idle)) = true := by
  decide +kernel

theorem test_step_fli_58 : (
    runs 0x0440003A State.reset fun t =>
      decide (t.f[1] = 58 ∧ t.z = false)) = true := by
  decide +kernel

theorem test_step_fli_59_faults :
    faults 0x0440003B State.reset 1 = true := by
  decide +kernel

theorem test_step_fmov_zero : (
    runs 0x08840000 (withF [(1, 0), (2, 9)]) fun t =>
      decide (t.f[2] = 0 ∧ t.z = true)) = true := by
  decide +kernel

theorem test_step_fadd_wraps : (
    runs 0x0CC48000 (withF [(1, 58), (2, 1)]) fun t =>
      decide (t.f[3] = 0 ∧ t.z = true)) = true := by
  decide +kernel

theorem test_step_fadd_aliased : (
    runs 0x0C444000 (withF [(1, 40)]) fun t =>
      decide (t.f[1] = 21 ∧ t.z = false)) = true := by
  decide +kernel

theorem test_step_fsub_borrows : (
    runs 0x10C48000 (withF [(1, 3), (2, 5)]) fun t =>
      decide (t.f[3] = 57 ∧ t.z = false)) = true := by
  decide +kernel

theorem test_step_fsub_equal : (
    runs 0x10C44000 (withF [(1, 17)]) fun t =>
      decide (t.f[3] = 0 ∧ t.z = true)) = true := by
  decide +kernel

theorem test_step_fneg_one : (
    runs 0x14840000 (withF [(1, 1)]) fun t =>
      decide (t.f[2] = 58 ∧ t.z = false)) = true := by
  decide +kernel

theorem test_step_fneg_zero : (
    runs 0x14840000 (withF [(1, 0)]) fun t =>
      decide (t.f[2] = 0 ∧ t.z = true)) = true := by
  decide +kernel

theorem test_step_fmul : (
    runs 0x18C48000 (withF [(1, 30), (2, 40)]) fun t =>
      decide (t.f[3] = 20 ∧ t.z = false)) = true := by
  decide +kernel

theorem test_step_fmul_zero : (
    runs 0x18C48000 (withF [(1, 0), (2, 33)]) fun t =>
      decide (t.f[3] = 0 ∧ t.z = true)) = true := by
  decide +kernel

theorem test_step_fdiv : (
    runs 0x1CC48000 (withF [(1, 1), (2, 2)]) fun t =>
      decide (t.f[3] = 30 ∧ t.z = false)) = true := by
  decide +kernel

theorem test_step_fdiv_by_zero_faults :
    faults 0x1CC48000 (withF [(1, 5), (2, 0)]) 2 = true := by
  decide +kernel

theorem test_step_finv : (
    runs 0x20840000 (withF [(1, 2)]) fun t =>
      decide (t.f[2] = 30 ∧ t.z = false)) = true := by
  decide +kernel

theorem test_step_finv_zero_faults :
    faults 0x20840000 State.reset 2 = true := by
  decide +kernel

theorem test_step_fpow_most_negative : (
    runs 0x24842000 (withF [(1, 2)]) fun t =>
      decide (t.f[2] = 36 ∧ t.z = false)) = true := by
  decide +kernel

theorem test_step_fpow_zero_to_minus_one_faults :
    faults 0x24843FFF (withF [(1, 0)]) 2 = true := by
  decide +kernel

theorem test_step_fpowf_faults :
    faults 0x28C48000 (withF [(1, 2), (2, 3)]) 3 = true := by
  decide +kernel

theorem test_step_feq_equal : (
    runs 0x2C048000 (withF [(1, 7), (2, 7)]) fun t =>
      decide (t.z = true ∧ t.f = (withF [(1, 7), (2, 7)]).f)) = true := by
  decide +kernel

theorem test_step_pclr : (
    runs 0x40400000 (withP [(1, poly [1, 53, 8])]) fun t =>
      decide (low t.p[1] [0] = true ∧ t.z = true)) = true := by
  decide +kernel

theorem test_step_pmov : (
    runs 0x44840000 (withP [(1, poly [1, 53, 8])]) fun t =>
      decide (low t.p[2] [1, 53, 8] = true ∧ t.z = false)) = true := by
  decide +kernel

theorem test_step_ppush : (
    runs 0x48480000 ({ withP [(1, poly [1, 53, 8])] with f := (withF [(2, 4)]).f }) fun t =>
      decide (low t.p[1] [1, 53, 8, 4] = true ∧ t.z = false)) = true := by
  decide +kernel

theorem test_step_ppush_zero_onto_zero : (
    runs 0x48480000 State.reset fun t =>
      decide (low t.p[1] [0] = true ∧ t.z = true)) = true := by
  decide +kernel

theorem test_step_ppushi_59_faults :
    faults 0x4C40003B (withP [(1, poly [5])]) 1 = true := by
  decide +kernel

theorem test_step_ppushi_full_faults :
    faults 0x4C000003 (withP [(0, mono 127)]) 6 = true := by
  decide +kernel

theorem test_step_psetc_lowers_the_degree : (
    runs 0x50480002 (withP [(1, poly [1, 53, 8])]) fun t =>
      decide (low t.p[1] [53, 8] = true ∧ t.p[1].degReg = 1)) = true := by
  decide +kernel

theorem test_step_psetc_128_faults :
    faults 0x50480080 (withF [(2, 1)]) 6 = true := by
  decide +kernel

theorem test_step_pgetc : (
    runs 0x55040001 (withP [(1, poly [1, 53, 8])]) fun t =>
      decide (t.f[4] = 53 ∧ t.z = false)) = true := by
  decide +kernel

theorem test_step_padd : (
    runs 0x58C48000 (withP [(1, poly [1, 53, 8]), (2, poly [1, 6])]) fun t =>
      decide (low t.p[3] [1, 54, 14] = true ∧ t.z = false)) = true := by
  decide +kernel

theorem test_step_padd_cancels : (
    runs 0x58C48000 (withP [(1, poly [1, 2, 3]), (2, poly [58, 57, 56])]) fun t =>
      decide (low t.p[3] [0] = true ∧ t.z = true)) = true := by
  decide +kernel

theorem test_step_psub : (
    runs 0x5CC84000 (withP [(1, poly [1, 53, 8]), (2, poly [1, 6])]) fun t =>
      decide (low t.p[3] [58, 7, 57] = true ∧ t.z = false)) = true := by
  decide +kernel

theorem test_step_pmul : (
    runs 0x60C48000 (withP [(1, poly [1, 57]), (2, poly [1, 55])]) fun t =>
      decide (low t.p[3] [1, 53, 8] = true ∧ t.z = false)) = true := by
  decide +kernel

theorem test_step_pmul_degree_128_faults :
    faults 0x60C48000 (withP [(1, mono 64), (2, mono 64)]) 6 = true := by
  decide +kernel

theorem test_step_pscale : (
    runs 0x64C48000 ({ withP [(1, poly [1, 53, 8])] with f := (withF [(2, 30)]).f }) fun t =>
      decide (low t.p[3] [30, 56, 4] = true ∧ t.z = false)) = true := by
  decide +kernel

theorem test_step_pshl_zero_by_16383 : (
    runs 0x68C43FFF State.reset fun t =>
      decide (low t.p[3] [0] = true ∧ t.z = true)) = true := by
  decide +kernel

theorem test_step_pshl_past_127_faults :
    faults 0x68C40008 (withP [(1, mono 120)]) 6 = true := by
  decide +kernel

theorem test_step_pshr : (
    runs 0x6CC40001 (withP [(1, poly [1, 53, 8])]) fun t =>
      decide (low t.p[3] [1, 53] = true ∧ t.z = false)) = true := by
  decide +kernel

theorem test_step_pdivmod_aliased : (
    runs 0x70448800 (withP [(1, poly [1, 0, 0, 1]), (2, poly [1, 53, 8])]) fun t =>
      decide (low t.p[1] [1, 6] = true ∧ low t.p[2] [28, 12] = true ∧ t.z = false)) = true := by
  decide +kernel

theorem test_step_pdivmod_by_zero_faults :
    faults 0x70C49000 (withP [(1, poly [1, 53, 8])]) 4 = true := by
  decide +kernel

theorem test_step_peval : (
    runs 0x74C48000 ({ withP [(1, poly [1, 53, 8])] with f := (withF [(2, 3)]).f }) fun t =>
      decide (t.f[3] = 58 ∧ t.z = false)) = true := by
  decide +kernel

theorem test_step_peq_equal : (
    runs 0x78048000 (withP [(1, poly [1, 53, 8]), (2, poly [1, 53, 8])]) fun t =>
      decide (t.z = true)) = true := by
  decide +kernel

theorem test_step_rscfg : (
    runs 0x80001D2E State.reset fun t =>
      decide (t.cfgWord = 0x800C2E3A ∧ t.z = false)) = true := by
  decide +kernel

theorem test_step_rscfg_k_zero_faults :
    faults 0x80000080 State.reset 5 = true := by
  decide +kernel

theorem test_step_rssyn : (
    runs 0x84400000 ({ withP [(0, poly [1, 9, 3, 18, 2, 13, 6])] with cfg := cfg73 }) fun t =>
      decide (low t.p[1] [8, 8, 41, 53, 0] = true ∧ t.z = false)) = true := by
  decide +kernel

theorem test_step_rssyn_without_configuration_faults :
    faults 0x84400000 State.reset 5 = true := by
  decide +kernel

theorem test_step_bminit : (
    runs 0x88040000 (withP [(1, synd)]) fun t =>
      decide (low t.bm.ws [8, 8, 41, 53, 0] = true ∧ t.bmctlWord = 0)) = true := by
  decide +kernel

theorem test_step_bmstep : (
    runs 0x8C000000 ({ State.reset with bm := bmInit synd }) fun t =>
      decide (low t.bm.sig [6, 1] = true ∧ low t.bm.tau [49] = true ∧ t.bmctlWord = 0x00010101)) = true := by
  decide +kernel

theorem test_step_bmstep_at_127_faults :
    faults 0x8C000000 ({ State.reset with bm := { BmState.reset with l := 127 } }) 6 = true := by
  decide +kernel

theorem test_step_rsbm : (
    runs 0x90840C00 ({ withP [(1, synd)] with cfg := cfg73 }) fun t =>
      decide (low t.p[2] [5, 25, 1] = true ∧ low t.p[3] [14, 19, 1] = true ∧ t.bmctlWord = 0x00000204)) = true := by
  decide +kernel

theorem test_step_rsbm_without_configuration_faults :
    faults 0x90840C00 (withP [(1, synd)]) 5 = true := by
  decide +kernel

theorem test_step_bmget_after_reset : (
    runs 0x95400003 State.reset fun t =>
      decide (low t.p[5] [0, 1] = true ∧ t.z = false)) = true := by
  decide +kernel

theorem test_step_rsroot : (
    runs 0x98080000 (withP [(2, poly [5, 25, 1])]) fun t =>
      decide (t.errs.cnt = 2 ∧ t.errs.pos[1] = 1 ∧ t.errs.loc[0] = 32)) = true := by
  decide +kernel

theorem test_step_rsforney : (
    runs 0x9C0C0000 ({ withP [(3, poly [14, 19, 1])] with errs := errs73 0 0 }) fun t =>
      decide (t.errs.mag[0] = 7 ∧ t.errs.mag[1] = 3 ∧ t.errs.pos[0] = 5)) = true := by
  decide +kernel

theorem test_step_rsepoly : (
    runs 0xA1000000 ({ State.reset with errs := errs73 7 3 }) fun t =>
      decide (low t.p[4] [7, 0, 0, 0, 3, 0] = true ∧ t.z = false)) = true := by
  decide +kernel

/-! ## The host protocol -/

/-- A word of a reserved opcode raises IllegalCommand (30_encoding.md R87). -/
theorem test_step_illegal_word_faults : faults 0xFFFFFFFF State.reset 7 = true := by decide +kernel

/-- A CMD write while a command is in flight is discarded and sets OVR (20_memory.md R56). -/
theorem test_cmd_write_while_busy : (
    ({ State.reset with activity := .command 0 }).hostWrite 0x000C 0x0440003A =
      { State.reset with activity := .command 0, ovr := true }) := by decide +kernel

/-- SOFT_RESET and CLR_ERR together: the reset acts (10_state.md R32). -/
theorem test_ctrl_reset_before_clear :
    (State.reset.hostWrite 0x0007 3).activity = .resetting := by decide +kernel

/-- STATUS after a fault of code 6, with Z set (95_test_vectors.md, conventions). -/
theorem test_status_word : (
    ({ State.reset with err := true, ecode := 6, z := true }).hostRead 0x0008).busData = 0x00000606 := by
  decide +kernel

/-- The last coefficient of P15 and the last of W_GAM are at the ends of their windows (20_memory.md R52). -/
theorem test_window_ends :
    regOfAddr 0x5FFC = .pcoef 15 127 ∧ regOfAddr 0x69FC = .wcoef 4 127 ∧
    regOfAddr 0x6A00 = .unmapped ∧ regOfAddr 0x01E4 = .errpos 57 ∧ regOfAddr 0x01E8 = .unmapped := by
  decide +kernel

/-! ## Witnesses: the hypotheses of every obligation that has some are met together -/

/-- The core with the command word `w` in flight and nothing else to come. -/
def inFlight (w : Word) : State := { State.reset with activity := .command w }

/-- The core after an illegal word has faulted. -/
def faulted : State := { State.reset with err := true, ecode := 7, errcmd := 0xFFFFFFFF }

/-- The core with one action of the host to come. -/
def hosted (s : State) (op : HostOp) : State := { s with agenda := [.host op] }

theorem witness_DecodesEveryEncodedCommand : (Instr.rsbm 15 14 15).wellFormed = true := by decide

theorem witness_EncodesEveryDecodedWord : decode 0x90840C00 = .ok (.rsbm 2 3 1) := by rfl

/-- One word for each of the four conditions, and one that meets none. -/
theorem witness_RefusesExactlyTheIllegalWords :
    IllegalWord 0xFFFFFFFF ∧ IllegalWord 0x00000001 ∧ IllegalWord 0x95400005 ∧
    IllegalWord 0x70C48C00 ∧ ¬ IllegalWord 0x95400004 := by
  refine ⟨.inl (by decide), .inr (.inl ⟨0x03FFFFFF, by decide⟩), .inr (.inr (.inl (by decide))),
    .inr (.inr (.inr (by decide))), ?_⟩
  rintro (h | ⟨m, h, hm⟩ | h | h)
  · exact absurd h (by decide)
  · have hm' : m = 0x003FC000 := by
      have h' : some (0x003FC000 : Word) = some m := h
      injection h' with h'
      exact h'.symm
    subst hm'
    exact hm (by decide)
  · exact absurd h (by decide)
  · exact absurd h (by decide)

theorem witness_IllegalWordsRaiseIllegalCommand :
    IllegalWord 0xA4000000 ∧ (inFlight 0xA4000000).activity = .command 0xA4000000 ∧
    CoreTurn (inFlight 0xA4000000) [] :=
  ⟨.inl (by decide), rfl, .inr ⟨rfl, rfl⟩⟩

theorem witness_StepRunsTheDecodedCommand :
    decode 0x0440003A = .ok (.fli 1 58) ∧ (inFlight 0x0440003A).activity = .command 0x0440003A ∧
    CoreTurn (inFlight 0x0440003A) [] ∧
    CoreTurn { inFlight 0x0440003A with agenda := [.core, .core] } [.core] :=
  ⟨rfl, rfl, .inr ⟨rfl, rfl⟩, .inl rfl⟩

theorem witness_CmdWritesFollowTheProtocol :
    (0x000F : BitVec 16).toNat / 4 = 3 ∧ (inFlight 0).activity ≠ .idle ∧ faulted.err = true ∧
    (hosted State.reset (.write 0x000F 0)).agenda = .host (.write 0x000F 0) :: [] ∧
    State.reset.activity = .idle ∧ State.reset.err = false ∧ CoreTurn (inFlight 0) [] :=
  ⟨by decide, by decide, rfl, rfl, rfl, rfl, .inr ⟨rfl, rfl⟩⟩

theorem witness_CtrlWritesResetOrClear :
    (0x0004 : BitVec 16).toNat / 4 = 1 ∧ (0x0007 : BitVec 16).toNat / 4 = 1 ∧
    (3 : Word).getLsbD 0 = true ∧ ((2 : Word).getLsbD 0 = false ∧ (2 : Word).getLsbD 1 = true) ∧
    ((4 : Word).getLsbD 0 = false ∧ (4 : Word).getLsbD 1 = false) ∧
    (hosted faulted (.write 0x0007 2)).agenda = .host (.write 0x0007 2) :: [] ∧
    faulted.activity = .idle := by decide

theorem witness_ResetsReachTheResetState :
    ∃ addr v, HostOp.write 0x0004 1 = .write addr v ∧ addr.toNat / 4 = 1 ∧ v.getLsbD 0 = true :=
  ⟨0x0004, 1, rfl, by decide⟩

theorem witness_EveryStepKeepsTheInvariant : faulted.Inv ∧ step faulted = .next faulted := by
  refine ⟨⟨⟨fun i => ?_, fun w => bmInit_canonical canonical_zero w⟩, fun h => (nomatch h),
    bmInit_bounded _, ⟨fun i _ => ?_, fun i h => absurd h (Nat.not_lt_zero _),
    fun i j _ h => absurd h (Nat.not_lt_zero _)⟩,
    ⟨fun h => (nomatch h), fun _ => by decide, fun w h => (nomatch h)⟩⟩, rfl⟩
  · have h : faulted.p[i] = Poly.zero := by simp [faulted, State.reset]
    rw [h]
    exact canonical_zero
  · simp [faulted, State.reset, ErrList.reset]

theorem witness_FaultsArePrecise :
    (inFlight 0x28C48000).err = false ∧ CoreTurn (inFlight 0x28C48000) [] ∧
    ∃ t, step (inFlight 0x28C48000) = .next t ∧ t.err = true :=
  ⟨rfl, .inr ⟨rfl, rfl⟩, _, rfl, rfl⟩

/-- A CMD write, CLR_ERR, and a reset that completes, all while ERR = 1. -/
theorem witness_FaultsAreSticky :
    (∀ op, (hosted faulted op).RecordSound ∧ (hosted faulted op).err = true) ∧
    ({ faulted with activity := .resetting } : State).RecordSound ∧
    (∃ t, step (hosted faulted (.write 0x000C 0)) = .next t ∧ t.err = true) ∧
    (∃ t, step (hosted faulted (.write 0x0004 2)) = .next t ∧ t.err = false) ∧
    (∃ t, step { faulted with activity := .resetting } = .next t ∧ t.err = false) :=
  ⟨fun _ => ⟨⟨fun h => (nomatch h), fun _ => (by decide : 1 ≤ (7 : BitVec 4).toNat ∧ (7 : BitVec 4).toNat ≤ 7),
      fun _ h => (nomatch h)⟩, rfl⟩,
    ⟨fun h => (nomatch h), fun _ => by decide, fun _ h => (nomatch h)⟩, ⟨_, rfl, rfl⟩, ⟨_, rfl, rfl⟩,
    ⟨_, rfl, rfl⟩⟩

theorem witness_ClearErrReturnsFromTheFault :
    (0x0004 : BitVec 16).toNat / 4 = 1 ∧ (0x000C : BitVec 16).toNat / 4 = 3 ∧
    (2 : Word).getLsbD 0 = false ∧ (2 : Word).getLsbD 1 = true ∧
    decode 0x0440003A = .ok (.fli 1 58) ∧
    ∃ s : State, s.err = true ∧ s.activity = .idle ∧
      s.agenda = [.host (.write 0x0004 2), .host (.write 0x000C 0x0440003A)] :=
  ⟨by decide, by decide, by decide, by decide, rfl,
    { faulted with agenda := [.host (.write 0x0004 2), .host (.write 0x000C 0x0440003A)] }, rfl, rfl, rfl⟩

theorem witness_IdlingChangesNothing : State.reset.activity = .idle ∧ State.reset.agenda = [] :=
  ⟨rfl, rfl⟩

theorem witness_IdReadsTheConstant :
    (0x0000 : BitVec 16).toNat / 4 = 0 ∧ (0x0003 : BitVec 16).toNat / 4 = 0 := by decide

theorem witness_StatusReadsItsFields :
    (0x0008 : BitVec 16).toNat / 4 = 2 ∧ (0x000B : BitVec 16).toNat / 4 = 2 := by decide

theorem witness_ControlReadsTheirFields :
    State.reset.activity = .idle ∧ (0x0014 : BitVec 16).toNat / 4 = 0x14 / 4 ∧
    (0x001B : BitVec 16).toNat / 4 = 0x18 / 4 ∧ (0x001F : BitVec 16).toNat / 4 = 0x1C / 4 ∧
    (0x0010 : BitVec 16).toNat / 4 = 0x10 / 4 := by decide

/-- The last entry of every window. -/
theorem witness_WindowsReadTheirCells :
    State.reset.activity = .idle ∧ (0x007C : BitVec 16).toNat = 0x40 + 4 * (15 : Fin 16).val ∧
    (0x00BC : BitVec 16).toNat = 0x80 + 4 * (15 : Fin 16).val ∧
    (0x00D0 : BitVec 16).toNat = 0xC0 + 4 * (4 : Fin 5).val ∧
    (0x01E4 : BitVec 16).toNat = 0x100 + 4 * (57 : Fin 58).val ∧
    (0x02E4 : BitVec 16).toNat = 0x200 + 4 * (57 : Fin 58).val ∧
    (0x03E4 : BitVec 16).toNat = 0x300 + 4 * (57 : Fin 58).val ∧
    (0x5FFC : BitVec 16).toNat = 0x4000 + 4 * (128 * (15 : Fin 16).val + (127 : Fin 128).val) ∧
    (0x69FC : BitVec 16).toNat = 0x6000 + 4 * (128 * (4 : Fin 5).val + (127 : Fin 128).val) := by
  decide

/-- The first or last offset of every unmapped range, a read-only register, CTRL and CMD. -/
theorem witness_UnmappedReadsAreZeroAndOtherWritesIgnored :
    (0x20 ≤ (0x0020 : BitVec 16).toNat ∧ (0x0020 : BitVec 16).toNat ≤ 0x3F) ∧
    (0xD4 ≤ (0x00D4 : BitVec 16).toNat ∧ (0x00D4 : BitVec 16).toNat ≤ 0xFF) ∧
    (0x1E8 ≤ (0x01FF : BitVec 16).toNat ∧ (0x01FF : BitVec 16).toNat ≤ 0x1FF) ∧
    (0x2E8 ≤ (0x02E8 : BitVec 16).toNat ∧ (0x02E8 : BitVec 16).toNat ≤ 0x2FF) ∧
    (0x3E8 ≤ (0x3FFF : BitVec 16).toNat ∧ (0x3FFF : BitVec 16).toNat ≤ 0x3FFF) ∧
    0x6A00 ≤ (0xFFFF : BitVec 16).toNat ∧
    ((0x0008 : BitVec 16).toNat / 4 ≠ 0x4 / 4 ∧ (0x0008 : BitVec 16).toNat / 4 ≠ 0xC / 4) ∧
    (0x0007 : BitVec 16).toNat / 4 = 0x4 / 4 ∧ (0x000C : BitVec 16).toNat / 4 = 0xC / 4 ∧
    State.reset.activity = .idle := by
  decide

/-- A read while BUSY = 1, which draws an unspecified value, and one while BUSY = 0. -/
theorem witness_ReadsHaveNoSideEffects :
    (∃ t, step (hosted (inFlight 0) (.read 0x0040)) = .next t) ∧
    (∃ t, step (hosted State.reset (.read 0x0040)) = .next t) ∧ State.reset.activity = .idle :=
  ⟨⟨_, rfl⟩, ⟨_, rfl⟩, rfl⟩

theorem witness_CommandsWriteOnlyTheirRows :
    (∃ t, exec (.fli 15 58) State.reset = .next t) ∧ destF (.fli 15 58) ≠ some 0 ∧
    (0 : PReg) ∉ destP (.pdivmod 15 14 0 0) ∧ writesBm (.pclr 15) = false :=
  ⟨⟨_, rfl⟩, by decide, by decide, rfl⟩

theorem witness_ZUnchangedByItsKeepersAndFaults :
    State.reset.err = false ∧ (∃ t, exec .bmstep State.reset = .next t) ∧ keepsZ .bmstep = true ∧
    ∃ t, exec (.fpowf 3 1 2) State.reset = .next t ∧ t.err = true :=
  ⟨rfl, ⟨_, rfl⟩, rfl, _, rfl, rfl⟩

/-- A command that raises CapacityExceeded and one that does not. -/
theorem witness_CapacityExceededExactlyWhereListed :
    State.reset.err = false ∧ (∃ t, exec (.psetc 1 2 128) State.reset = .next t) ∧
    capacityExceeded (.psetc 1 2 128) State.reset ∧ ¬ capacityExceeded (.psetc 1 2 127) State.reset :=
  ⟨rfl, ⟨_, rfl⟩, by show 127 < (128 : BitVec 14).toNat; decide,
    by show ¬ 127 < (127 : BitVec 14).toNat; decide⟩

theorem witness_FliLoadsOrFaults :
    (58 : BitVec 14).toNat ≤ 58 ∧ 58 < (59 : BitVec 14).toNat ∧ 58 < (16383 : BitVec 14).toNat := by
  decide

theorem witness_FdivAndFinvResults :
    (withF [(1, 58)]).f[(1 : FReg)] ≠ 0 ∧ (withF [(1, 58)]).f[(2 : FReg)] = 0 := by decide

theorem witness_FpowResult :
    0 ≤ (0 : BitVec 14).toInt ∧ 0 ≤ (8191 : BitVec 14).toInt ∧ (8192 : BitVec 14).toInt < 0 ∧
    (16383 : BitVec 14).toInt < 0 ∧ (withF [(1, 2)]).f[(1 : FReg)] ≠ 0 ∧
    (withF [(1, 2)]).f[(0 : FReg)] = 0 := by decide

theorem witness_PpushAndPpushiResults :
    (withP [(0, mono 126)]).p[(0 : PReg)].coeff 127 = 0 ∧
    (withP [(0, mono 127)]).p[(0 : PReg)].coeff 127 ≠ 0 ∧
    (58 : BitVec 14).toNat ≤ 58 ∧ 58 < (59 : BitVec 14).toNat := by decide +kernel

theorem witness_PsetcAndPgetcResults :
    (127 : BitVec 14).toNat ≤ 127 ∧ 127 < (128 : BitVec 14).toNat ∧
    (127 : BitVec 14).toNat < 128 ∧ 128 ≤ (128 : BitVec 14).toNat := by decide

theorem witness_PmulResult :
    (mono 63).deg + (mono 64).deg ≤ 127 ∧ 127 < (mono 64).deg + (mono 64).deg := by decide +kernel

/-- The zero polynomial, a shift to power 127, one past it, and the two ways PSHR gives zero. -/
theorem witness_PshlAndPshrResults :
    (∀ j, Poly.zero.coeff j = 0) ∧ (∃ j, (mono 120).coeff j ≠ 0) ∧
    (mono 120).deg + (7 : BitVec 14).toNat ≤ 127 ∧
    127 < (mono 120).deg + (8 : BitVec 14).toNat :=
  ⟨coeff_zero, ⟨120, by decide +kernel⟩, by decide +kernel, by decide +kernel⟩

theorem witness_PdivmodDivides :
    (15 : PReg) = 15 ∧ (0 : PReg) ≠ 15 ∧
    (∃ j, (withP [(2, poly [1, 53, 8])]).p[(2 : PReg)].coeff j ≠ 0) ∧
    ∀ j, State.reset.p[(2 : PReg)].coeff j = 0 :=
  ⟨rfl, by decide, ⟨0, by decide +kernel⟩, coeff_zero⟩

theorem witness_RscfgSetsOrFaults :
    (1 ≤ (1 : BitVec 7).toNat ∧ (1 : BitVec 7).toNat < (2 : BitVec 7).toNat ∧
      (2 : BitVec 7).toNat ≤ 58) ∧
    (1 ≤ (57 : BitVec 7).toNat ∧ (57 : BitVec 7).toNat < (58 : BitVec 7).toNat ∧
      (58 : BitVec 7).toNat ≤ 58) ∧
    (0 : BitVec 7).toNat = 0 ∧ (7 : BitVec 7).toNat ≤ (7 : BitVec 7).toNat ∧
    59 ≤ (59 : BitVec 7).toNat := by decide

theorem witness_RssynResult :
    ({ State.reset with cfg := cfg73 } : State).cfg.cfgv = true ∧ State.reset.cfg.cfgv = false :=
  ⟨rfl, rfl⟩

/-- The generator polynomial of `RSCFG 2, 1` is x - 2. -/
theorem witness_SyndromesVanishExactlyOnMultiplesOfTheGenerator :
    ∃ s : State, s.cfg.cfgv = true ∧ s.cfg.Legal ∧ (2 : PReg) ≠ 3 ∧
      ∀ j, s.p[(4 : PReg)].coeff j = genCoeff s.cfg.nk.toNat j := by
  refine ⟨{ withP [(4, poly [1, 57])] with cfg := { n := 2, k := 1, nk := 1, cfgv := true } }, rfl,
    fun _ => by decide, by decide, fun j => ?_⟩
  have hg : genCoeff 1 j =
      (if j = 0 then 0 else if j - 1 = 0 then 1 else 0) - pow2 1 * (if j = 0 then 1 else 0) := rfl
  show (poly [1, 57]).coeff j = genCoeff 1 j
  rw [hg, poly, coeff_canon]
  rcases j with _ | _ | j
  · decide
  · decide
  · have h0 : nthElem ([57, 1] : List Elem) (j + 1 + 1) = 0 := by rfl
    simp [h0]

/-- At the reset state the discrepancy is 0; after BMINIT of the (7, 3) syndromes it is 53, the update rule. -/
theorem witness_BmstepFollowsTheTable :
    State.reset.bm.Bounded ∧ State.reset.bm.discrepancy = 0 ∧ State.reset.bm.l.toNat ≤ 126 ∧
    (bmInit synd).Bounded ∧ (bmInit synd).discrepancy = 53 ∧
    ({ BmState.reset with l := 127 } : BmState).l.toNat = 127 :=
  ⟨bmInit_bounded _, by decide +kernel, by decide, bmInit_bounded _, by decide +kernel, by decide⟩

theorem witness_BmstepAtTheLimit : ({ BmState.reset with l := 127 } : BmState).Bounded := by
  obtain ⟨h1, _, _, _, _, h6, _⟩ := bmInit_bounded Poly.zero
  have hd : ∀ q : Poly, q.deg ≤ 127 := fun q => Nat.le_of_lt_succ (deg_lt q)
  exact ⟨h1, hd _, hd _, hd _, hd _, h6, by decide⟩

theorem witness_RsbmIsBminitAndBmsteps :
    (2 : PReg) = 2 ∧ (2 : PReg) ≠ 3 ∧ ({ State.reset with cfg := cfg73 } : State).cfg.cfgv = true ∧
    State.reset.cfg.cfgv = false := ⟨rfl, by decide, rfl, rfl⟩

theorem witness_KeyEquationHoldsAtEveryIteration :
    (withP [(1, synd)]).p[(1 : PReg)].coeff 0 = 0 ∧ 127 ≤ 127 := by decide +kernel

/-- The list RSROOT gives for the (7, 3) locator, and one with two equal locations, which no command writes. -/
theorem witness_RsforneyMagnitudes :
    (errListOf (rootExponents (poly [5, 25, 1]))).Sound ∧
    ∃ e : ErrList, ∃ (i : Fin 58) (x : Elem), i.val < e.cnt.val ∧ e.loc[i] * x = 1 ∧
      ((List.finRange 58).filter fun m => decide (m.val < e.cnt.val ∧ m ≠ i)).foldl
        (fun (pr : Elem) (m : Fin 58) => pr * (1 - e.loc[m] * x)) 1 = 0 := by
  refine ⟨rsroot_sound _, { ErrList.reset with cnt := 2, loc := Vector.replicate 58 1 }, 0, 1, ?_⟩
  decide +kernel

theorem witness_RsepolyPlacesTheMagnitudes :
    (errListOf (rootExponents (poly [5, 25, 1]))).Sound ∧ ErrList.reset.Sound :=
  ⟨rsroot_sound _, fun i _ => by simp [ErrList.reset], fun _ h => absurd h (Nat.not_lt_zero _),
    fun _ _ _ h => absurd h (Nat.not_lt_zero _)⟩

theorem witness_PrimitivesAreTheSpecs :
    127 < 128 ∧ 128 ≤ 128 ∧ Poly.one.isZero = false ∧ Poly.zero.isZero = true ∧ (58 : Elem) ≠ 0 := by
  decide +kernel

/-- A run of one command word: the reset completes, BUSY = 0 is read, the word is written and executed, and BUSY = 0
is read. -/
def runOf (w : Word) : List Event :=
  [.core, .host (.read 0x0008), .host (.write 0x000C w), .core, .host (.read 0x0008)]

/-- What the run of one word from the faulted core answers: the end is clean, and `F1` is 58. -/
theorem witness_CleanRunsExecuteTheirCommandsInOrder :
    ∃ t, CleanRun faulted .resetInput (runOf 0x0440003A) t ∧ t.f[(1 : FReg)] = 58 :=
  ⟨_, ⟨_, rfl, rfl, rfl, rfl⟩, rfl⟩

/-- A clean run, and one whose second word is lost because its first has faulted: a faulted run. -/
theorem witness_RunsEndIdleAndReadBack :
    (∃ t, RunEnds faulted .resetInput (runOf 0) t) ∧
    ∃ t v, hostRun faulted .resetInput
        (runOf 0x28C48000 ++ [.host (.write 0x000C 0), .host (.read 0x0008)]) = some (v, t) ∧
      v.done = true ∧ v.cleared = false ∧ t.ovr = true ∧ t.ecode = 3 :=
  ⟨⟨_, _, rfl, rfl⟩, _, _, rfl, rfl, rfl, rfl, rfl⟩

theorem test_run_faulted :
    ∃ t, FaultedRun State.reset (.write 0x0004 1) (runOf 0x28C48000) t :=
  ⟨_, ⟨_, rfl, rfl⟩, .inl rfl⟩

/-- No run: a CMD write before BUSY = 0 was read, here after a read of BUSY = 1 only (R270, R274). -/
theorem test_run_needs_busy_read :
    hostRun State.reset .resetInput [.host (.read 0x0008), .core, .host (.write 0x000C 0)] = none := by
  rfl

/-- A run with its last command in flight has not ended, and one that writes CLR_ERR meets no clean run's premise. -/
theorem test_run_not_ended :
    (∃ t v, hostRun State.reset .resetInput
      [.core, .host (.read 0x0008), .host (.write 0x000C 0), .host (.read 0x0008)] = some (v, t) ∧
      v.done = false ∧ t.ranClean = false) ∧
    ∃ t v, hostRun State.reset .resetInput
      [.core, .host (.write 0x0004 2), .host (.read 0x0008)] = some (v, t) ∧
      v.done = true ∧ v.cleared = true :=
  ⟨⟨_, _, rfl, rfl, rfl⟩, _, _, rfl, rfl, rfl⟩

theorem witness_ForneyProductsVanishOnEqualLocations :
    58 ≤ 58 ∧ (errs73 0 0).loc[(0 : Fin 58)] * (24 : Elem) = 1 := by decide +kernel

end Sys2Proof.Tests
end

section
/-! Proof of the statement about the primitives of 00_scope.md R12: what the model computes in `Elem`, read as integers
reduced modulo 59. -/

namespace Sys2Proof.Machine

open scoped Fin.CommRing

/-- A sum in GF(59) is the integer sum of its terms, reduced once. -/
theorem val_sumTo (f : Nat → Elem) (n : Nat) :
    (sumTo f n).val = ((List.range n).map fun i => (f i).val).sum % 59 := by
  induction n with
  | zero => rfl
  | succ n ih =>
    rw [sumTo, Fin.val_add, ih, Nat.mod_add_mod, List.range_succ, List.map_append, List.sum_append]
    simp

/-- A term of a polynomial's value is the integer term, reduced. -/
theorem val_mul_powElem (v x : Elem) (e : Nat) : (v * powElem x e).val = v.val * x.val ^ e % 59 := by
  rw [Fin.val_mul, powElem, Nat.mul_mod_mod]

/-- The powers of the generator, in integers (00_scope.md R8, R12). -/
theorem val_pow2 (e : Nat) : (pow2 e).val = 2 ^ (e % 58) % 59 := rfl

/-- The inverse of a nonzero element, as an equation of integers (00_scope.md R12). -/
theorem val_mul_invElem {v : Elem} (h : v ≠ 0) : v.val * (invElem v).val % 59 = 1 := by
  rw [← Fin.val_mul, mul_invElem h]; rfl

/-- The value of a polynomial is the sum of its 128 terms in integers, reduced once (00_scope.md R12). -/
theorem val_eval (q : Poly) (x : Elem) :
    (q.eval x).val = ((List.range 128).map fun j => (q.coeff j).val * x.val ^ j).sum % 59 := by
  rw [eval_eq_sum q x (deg_lt q), val_sumTo]
  conv_rhs => rw [List.sum_nat_mod]
  rw [List.map_map]
  simp only [val_mul_powElem, Function.comp_def]

theorem deg_eq_zero_of_isZero {q : Poly} (h : q.isZero = true) : q.deg = 0 :=
  Nat.le_zero.1 (deg_le_of_coeff fun j _ => (isZero_iff q).1 h j)

/-- Settles O58: each primitive's integer form, from its coefficient, degree and GF(59) laws. -/
theorem primitivesAreTheSpecs : Obligations.PrimitivesAreTheSpecs := by
  refine ⟨val_sumTo, fun q j => ⟨fun h => ?_, coeff_of_ge q, ?_, ?_⟩, fun q =>
    ⟨isZero_iff q, fun _ => coeff_above_deg q, coeff_deg_ne_zero q, deg_eq_zero_of_isZero⟩,
    val_pow2, fun _ => val_mul_invElem, val_eval⟩
  · rw [coeff_eq, dif_pos h]
  · rw [coeff_one]; split <;> rfl
  · rw [coeff_zero]; rfl

end Sys2Proof.Machine
end

section
/-! Proofs of the statements about reset and the invariant of the machine (10_state.md R22, R26, R28 to R31, R35): each
named operation keeps the invariant, then each thing a step can do does. -/

namespace Sys2Proof.Machine

/-! ### The reset state (10_state.md R40) -/

theorem reset_f (i : FReg) : State.reset.f[i] = 0 := by simp [State.reset]

theorem reset_p (i : PReg) : State.reset.p[i] = Poly.zero := by simp [State.reset]

theorem reset_errs_entry (i : Fin 58) : State.reset.errs.pos[i] = 0 ∧ State.reset.errs.loc[i] = 0 ∧
    State.reset.errs.mag[i] = 0 := by
  simp [State.reset, ErrList.reset]

/-- The working state after reset is the one BMINIT gives for the zero polynomial (10_state.md R40). -/
theorem bmInit_zero : bmInit Poly.zero = State.reset.bm := rfl

theorem reset_bm_work_degReg (w : WSel) : (State.reset.bm.work w).degReg = 0 := by cases w <;> rfl

/-- The empty error list is sound: no entry stands below ERRCNT. -/
theorem reset_errs_sound : State.reset.errs.Sound :=
  ⟨fun i _ => reset_errs_entry i, fun _ h => absurd h (Nat.not_lt_zero _),
    fun _ _ _ h => absurd h (Nat.not_lt_zero _)⟩

/-- Settles O12: the working state is BMINIT's, every register is 0, and no fault is recorded. -/
theorem resetHasTheInvariant : Obligations.ResetHasTheInvariant := by
  refine ⟨⟨fun i => ?_, bmInit_canonical canonical_zero⟩, fun h => (nomatch h), bmInit_bounded _,
    reset_errs_sound, fun _ => ⟨rfl, rfl⟩, fun h => (nomatch h), fun _ h => (nomatch h)⟩
  rw [reset_p]
  exact canonical_zero

/-- Settles O11: each piece of state read off the reset state, and BMINIT there writes what stands there. -/
theorem resetValuesAreTheSpecs : Obligations.ResetValuesAreTheSpecs := by
  refine ⟨reset_f, fun i => ?_, rfl, rfl, rfl, rfl, rfl, fun j => ?_, reset_bm_work_degReg, rfl, rfl, rfl,
    rfl, reset_errs_entry, rfl, rfl, rfl, rfl, rfl, fun a => ?_⟩
  · rw [reset_p]
    exact ⟨rfl, coeff_zero⟩
  · exact ⟨coeff_zero j, coeff_zero j, coeff_one j, coeff_one j, coeff_one j⟩
  · show Host.Outcome.next { State.reset with bm := bmInit State.reset.p[a] } = .next State.reset
    rw [reset_p, bmInit_zero]

/-! ### Each part of the invariant under the operations that touch it -/

/-- A property of all polynomial registers is kept by writing one that has it. -/
theorem forall_preg_set {P : Poly → Prop} {v : Vector Poly 16} (h : ∀ i : PReg, P v[i]) (d : PReg) {q : Poly}
    (hq : P q) (i : PReg) : P (v.set d q)[i] := by
  rw [Fin.getElem_fin, Vector.getElem_set]
  split
  · exact hq
  · exact h i

/-- The record of `t` is sound when it is that of `s` and the same thing is in progress. -/
theorem recordSound_congr {s t : State} (h : s.RecordSound) (herr : t.err = s.err) (hcode : t.ecode = s.ecode)
    (hcmd : t.errcmd = s.errcmd) (hact : t.activity = s.activity) : t.RecordSound := by
  rw [State.RecordSound, herr, hcode, hcmd, hact]
  exact h

/-- A fault of one of the core's own codes leaves a sound record (60_exceptions.md R230, R235). -/
theorem raise_recordSound (s : State) (w : Word) {k : FaultKind} (h : k.code.toNat ≤ 7) :
    (s.raise w k).RecordSound :=
  ⟨fun h => (nomatch h), fun _ => ⟨code_pos k, h⟩, fun _ h => (nomatch h)⟩

/-- With no command in flight, or none any more, only the record itself matters. -/
theorem recordSound_of_not_command {s t : State} (h : s.RecordSound) (herr : t.err = s.err)
    (hcode : t.ecode = s.ecode) (hcmd : t.errcmd = s.errcmd) (hact : ∀ w, t.activity ≠ .command w) :
    t.RecordSound := by
  obtain ⟨hclear, hset, _⟩ := h
  rw [State.RecordSound, herr, hcode, hcmd]
  exact ⟨hclear, hset, fun w hw => absurd hw (hact w)⟩

/-- RSFORNEY writes magnitudes below ERRCNT only (44_roots_forney.md R211). -/
theorem sound_withMag {e : ErrList} (h : e.Sound) {m : Vector Elem 58}
    (hm : ∀ i : Fin 58, e.cnt.val ≤ i.val → m[i] = 0) : ({ e with mag := m } : ErrList).Sound := by
  obtain ⟨hzero, hloc, hpos⟩ := h
  exact ⟨fun i hi => ⟨(hzero i hi).1, (hzero i hi).2.1, hm i hi⟩, hloc, hpos⟩

/-! ### The invariant under each named operation -/

theorem inv_raise {s : State} (h : s.Inv) (w : Word) {k : FaultKind} (hk : k.code.toNat ≤ 7) :
    (s.raise w k).Inv := by
  obtain ⟨hpoly, hcfg, hbm, herrs, _⟩ := h
  exact ⟨hpoly, hcfg, hbm, herrs, raise_recordSound s w hk⟩

theorem inv_retire {s : State} (h : s.Inv) : s.retire.Inv := by
  obtain ⟨hpoly, hcfg, hbm, herrs, hrec⟩ := h
  exact ⟨hpoly, hcfg, hbm, herrs, recordSound_of_not_command hrec rfl rfl rfl fun _ h => (nomatch h)⟩

theorem inv_beginReset {s : State} (h : s.Inv) : s.beginReset.Inv := by
  obtain ⟨hpoly, hcfg, hbm, herrs, hrec⟩ := h
  exact ⟨hpoly, hcfg, hbm, herrs, recordSound_of_not_command hrec rfl rfl rfl fun _ h => (nomatch h)⟩

theorem inv_clearErr {s : State} (h : s.Inv) : s.clearErr.Inv := by
  obtain ⟨hpoly, hcfg, hbm, herrs, _⟩ := h
  exact ⟨hpoly, hcfg, hbm, herrs, fun _ => ⟨rfl, rfl⟩, fun h => (nomatch h), fun _ _ => rfl⟩

/-- A CMD write is taken only while ERR = 0 (20_memory.md R56). -/
theorem inv_issue {s : State} (h : s.Inv) (w : Word) : (s.issue w).Inv := by
  rcases issue_cases s w with ⟨_, heq⟩ | ⟨_, herr, heq⟩ <;> rw [heq]
  · exact h
  · obtain ⟨hpoly, hcfg, hbm, herrs, hclear, hcode, _⟩ := h
    exact ⟨hpoly, hcfg, hbm, herrs, hclear, hcode, fun _ _ => herr⟩

theorem inv_finishReset (s : State) : s.finishReset.Inv := resetHasTheInvariant

/-! ### The invariant under each way a command completes -/

theorem completes_polysCanonical {s t : State} {i : Instr} (h : Completes s i t) (hs : s.PolysCanonical) :
    t.PolysCanonical := by
  have ⟨hp, hw⟩ := hs
  cases h with
  | nothing | field | flag | config | roots | magnitudes => exact hs
  | poly d q _ hq => exact ⟨forall_preg_set hp d (hq hs), hw⟩
  | division d c a b q r hq hr => exact ⟨forall_preg_set (forall_preg_set hp d hq) c hr, hw⟩
  | solver b _ _ hc => exact ⟨hp, hc hs⟩
  | solved d c a b _ hc =>
    exact ⟨forall_preg_set (forall_preg_set hp d (hc hs .sigma)) c (hc hs .omega), hc hs⟩

theorem completes_legal {s t : State} {i : Instr} (h : Completes s i t) (hs : s.cfg.Legal) : t.cfg.Legal := by
  cases h with
  | config n k g hg => exact hg
  | nothing | field | poly | flag | division | solver | solved | roots | magnitudes => exact hs

theorem completes_bounded {s t : State} {i : Instr} (h : Completes s i t) (hs : s.bm.Bounded) :
    t.bm.Bounded := by
  cases h with
  | solver b _ hb => exact hb hs
  | solved d c a b hb => exact hb
  | nothing | field | poly | flag | division | config | roots | magnitudes => exact hs

theorem completes_errsSound {s t : State} {i : Instr} (h : Completes s i t) (hs : s.errs.Sound) :
    t.errs.Sound := by
  cases h with
  | roots a e he => exact he
  | magnitudes a m hm => exact sound_withMag hs hm
  | nothing | field | poly | flag | division | config | solver | solved => exact hs

theorem completes_inv {s t : State} {i : Instr} (h : Completes s i t) (hs : s.Inv) : t.Inv := by
  obtain ⟨hpoly, hcfg, hbm, herrs, hrec⟩ := hs
  obtain ⟨herr, hcode, _, hcmd, hact, _⟩ := completes_record h
  exact ⟨completes_polysCanonical h hpoly, completes_legal h hcfg, completes_bounded h hbm,
    completes_errsSound h herrs, recordSound_congr hrec herr hcode hcmd hact⟩

/-! ### The invariant under a step -/

theorem exec_inv {s t : State} {i : Instr} (h : exec i s = .next t) (hs : s.Inv) : t.Inv := by
  rcases exec_ends i s with ⟨k, hk, heq⟩ | ⟨u, hu, heq⟩ <;> rw [h] at heq <;> cases heq
  · exact inv_raise hs _ hk
  · exact completes_inv hu hs

theorem runWord_inv {s t : State} {w : Word} (h : runWord w s = .next t) (hs : s.Inv) : t.Inv := by
  rw [runWord] at h
  cases hd : decode w with
  | error e =>
    rw [hd] at h
    cases h
    exact inv_raise hs w (by decide)
  | ok i =>
    obtain ⟨u, hu⟩ := exec_next i s
    simp only [hd, hu] at h
    cases h
    exact inv_retire (exec_inv hu hs)

theorem coreStep_inv {s t : State} (h : coreStep s = .next t) (hs : s.Inv) : t.Inv := by
  rw [coreStep] at h
  split at h
  · cases h
    exact hs
  · exact runWord_inv h hs
  · cases h
    exact inv_finishReset s

theorem hostAct_inv {s : State} (hs : s.Inv) (op : HostOp) : (s.hostAct op).Inv := by
  rcases hostAct_cases s op with ⟨b, n, h⟩ | ⟨w, h⟩ | h | h <;> rw [h]
  · exact hs
  · exact inv_issue hs w
  · exact inv_beginReset hs
  · exact inv_clearErr hs

/-- Settles O13: a step is the host's action or the core's completion, and both keep the invariant, which does not
look at the agenda. -/
theorem everyStepKeepsTheInvariant : Obligations.EveryStepKeepsTheInvariant := by
  intro s t hs h
  rw [step] at h
  split at h
  · exact coreStep_inv h hs
  · next ev rest _ =>
    have hs' : ({ s with agenda := rest } : State).Inv := hs
    cases ev with
    | core => exact coreStep_inv h hs'
    | host op =>
      cases h
      exact hostAct_inv hs' op

end Sys2Proof.Machine
end

section
/-! Proofs of the statements about what a command may write (10_state.md R23, R24): each group of state under each way a
command completes. -/

namespace Sys2Proof.Machine

/-- A field register keeps its value unless it is the command's destination. -/
theorem completes_f {s t : State} {i : Instr} (h : Completes s i t) {r : FReg} (hr : destF i ≠ some r) :
    t.f[r] = s.f[r] := by
  cases h with
  | field d v hd =>
    obtain ⟨_, _, hother, _⟩ := writesF_putF s d v
    exact hother r fun heq => hr (by rw [hd, heq])
  | nothing | poly | flag | division | config | solver | solved | roots | magnitudes => rfl

theorem getElem_set_set_of_ne {v : Vector Poly 16} {d c r : PReg} (q q' : Poly) (hr : r ∉ [d, c]) :
    ((v.set d q).set c q')[r] = v[r] := by
  obtain ⟨hd, hc⟩ : r ≠ d ∧ r ≠ c := by simpa using hr
  simp [Fin.val_ne_of_ne hd.symm, Fin.val_ne_of_ne hc.symm]

/-- A polynomial register keeps its value unless it is a destination of the command. -/
theorem completes_p {s t : State} {i : Instr} (h : Completes s i t) {r : PReg} (hr : r ∉ destP i) :
    t.p[r] = s.p[r] := by
  cases h with
  | poly d q hd =>
    obtain ⟨_, _, hother, _⟩ := copiesP_putP s d q
    exact hother r fun heq => hr (by simp [hd, heq])
  | division d c => exact getElem_set_set_of_ne _ _ hr
  | solved d c => exact getElem_set_set_of_ne _ _ hr
  | nothing | field | flag | config | solver | roots | magnitudes => rfl

theorem completes_cfg {s t : State} {i : Instr} (h : Completes s i t) (hi : ∀ n k, i ≠ .rscfg n k) :
    t.cfg = s.cfg := by
  cases h with
  | config n k => exact absurd rfl (hi n k)
  | nothing | field | poly | flag | division | solver | solved | roots | magnitudes => rfl

theorem completes_bm {s t : State} {i : Instr} (h : Completes s i t) (hi : writesBm i = false) :
    t.bm = s.bm := by
  cases h with
  | solver b hb => rcases hb with ⟨a, rfl⟩ | rfl <;> cases hi
  | solved => cases hi
  | nothing | field | poly | flag | division | config | roots | magnitudes => rfl

theorem completes_errs {s t : State} {i : Instr} (h : Completes s i t) (hi : ∀ a, i ≠ .rsroot a) :
    t.errs = { s.errs with mag := t.errs.mag } := by
  cases h with
  | roots a => exact absurd rfl (hi a)
  | nothing | field | poly | flag | division | config | solver | solved | magnitudes => rfl

theorem completes_mag {s t : State} {i : Instr} (h : Completes s i t) (hroot : ∀ a, i ≠ .rsroot a)
    (hforney : ∀ a, i ≠ .rsforney a) : t.errs.mag = s.errs.mag := by
  cases h with
  | roots a => exact absurd rfl (hroot a)
  | magnitudes a => exact absurd rfl (hforney a)
  | nothing | field | poly | flag | division | config | solver | solved => rfl

/-- Settles O25: a fault writes the record alone; a completion leaves ERR as it was and writes its row. -/
theorem commandsWriteOnlyTheirRows : Obligations.CommandsWriteOnlyTheirRows := by
  intro i s t h
  rcases exec_ends i s with ⟨k, _, heq⟩ | ⟨u, hu, heq⟩ <;> rw [h] at heq <;> cases heq
  · simp
  · obtain ⟨herr, _, hovr, _, _, hagenda, hbus, hdraws⟩ := completes_record hu
    refine ⟨fun _ => completes_f hu, fun _ => completes_p hu, completes_cfg hu, completes_bm hu, fun hi => ?_,
      completes_mag hu, hovr, hagenda, hbus, hdraws, fun h0 h1 => ?_⟩
    · rw [completes_errs hu hi]
      exact ⟨rfl, rfl, rfl⟩
    · rw [herr, h0] at h1
      cases h1

/-- The commands that keep Z write no field register, and none of them one polynomial register alone. -/
theorem dest_of_keepsZ {i : Instr} (h : keepsZ i = true) : destF i = none ∧ ∀ d, destP i ≠ [d] := by
  cases i with
  | nop | rscfg | bminit | bmstep | rsbm | rsforney => exact ⟨rfl, by simp [destP]⟩
  | _ => cases h

theorem completes_z {s t : State} {i : Instr} (h : Completes s i t) (hz : keepsZ i = true) : t.z = s.z := by
  obtain ⟨hF, hP⟩ := dest_of_keepsZ hz
  cases h with
  | field d v hd => rw [hF] at hd; cases hd
  | poly d q hd => exact absurd hd (hP d)
  | flag z hi => rcases hi with ⟨a, b, rfl⟩ | ⟨a, b, rfl⟩ <;> cases hz
  | division => cases hz
  | roots => cases hz
  | nothing | config | solver | solved | magnitudes => rfl

/-- Settles O26: a fault leaves Z, and so does each of Z's keepers when it completes. -/
theorem zUnchangedByItsKeepersAndFaults : Obligations.ZUnchangedByItsKeepersAndFaults := by
  intro i s t h0 h hi
  rcases exec_ends i s with ⟨k, _, heq⟩ | ⟨u, hu, heq⟩ <;> rw [h] at heq <;> cases heq
  · rfl
  · have herr : t.err = false := (completes_record hu).1.trans h0
    exact completes_z hu (hi.resolve_right (by simp [herr]))

end Sys2Proof.Machine
end

section
/-! Proofs of the statements about the control and status registers (10_state.md R31 to R39): which register an offset
names, what an exact read returns, and the fields of each word. -/

namespace Sys2Proof.Machine

theorem regOfAddr_of_word {addr : BitVec 16} {m : Nat} (h : addr.toNat / 4 = m) :
    regOfAddr addr = regOfWord m := by
  rw [regOfAddr, h]

/-- A read returns the committed value while BUSY = 0, and of STATUS, ID and unmapped offsets always
(10_state.md R39). -/
theorem hostRead_busData {s : State} {addr : BitVec 16} {r : HostReg} (hr : regOfAddr addr = r)
    (h : s.activity = .idle ∨ r.exactWhileBusy = true) : (s.hostRead addr).busData = s.regValue r := by
  rw [State.hostRead, hr]
  rcases h with h | h
  · simp [State.busy, h]
  · simp [h]

/-- A bit is the field of that one bit. -/
theorem getLsbD_eq_of_bits {w : Word} {n : Nat} {b : Bool} (h : bits w n n = b.toNat) : w.getLsbD n = b := by
  have hb : w.toNat / 2 ^ n % 2 = b.toNat := by simpa [bits] using h
  rw [BitVec.getLsbD, Nat.testBit_eq_decide_div_mod_eq, hb]
  cases b <;> rfl

/-- The fields of STATUS (10_state.md R31). -/
theorem statusWord_fields (s : State) :
    s.statusWord.getLsbD 0 = s.busy ∧ s.statusWord.getLsbD 1 = s.err ∧ s.statusWord.getLsbD 2 = s.z ∧
    s.statusWord.getLsbD 3 = s.ovr ∧ bits s.statusWord 7 4 = 0 ∧
    bits s.statusWord 11 8 = s.ecode.toNat ∧ bits s.statusWord 31 12 = 0 := by
  have := s.busy.toNat_le
  have := s.err.toNat_le
  have := s.z.toNat_le
  have := s.ovr.toNat_le
  have := s.ecode.isLt
  refine ⟨getLsbD_eq_of_bits ?_, getLsbD_eq_of_bits ?_, getLsbD_eq_of_bits ?_, getLsbD_eq_of_bits ?_, ?_, ?_, ?_⟩ <;>
    rw [bits, State.statusWord, BitVec.toNat_ofNat] <;> omega

/-- The fields of CFG (10_state.md R36). -/
theorem cfgWord_fields (s : State) :
    bits s.cfgWord 5 0 = s.cfg.n.toNat ∧ bits s.cfgWord 7 6 = 0 ∧ bits s.cfgWord 13 8 = s.cfg.k.toNat ∧
    bits s.cfgWord 15 14 = 0 ∧ bits s.cfgWord 21 16 = s.cfg.nk.toNat ∧ bits s.cfgWord 30 22 = 0 ∧
    s.cfgWord.getLsbD 31 = s.cfg.cfgv := by
  have := s.cfg.n.isLt
  have := s.cfg.k.isLt
  have := s.cfg.nk.isLt
  have := s.cfg.cfgv.toNat_le
  refine ⟨?_, ?_, ?_, ?_, ?_, ?_, getLsbD_eq_of_bits ?_⟩ <;> rw [bits, State.cfgWord, BitVec.toNat_ofNat] <;> omega

/-- The fields of BMCTL (10_state.md R37). -/
theorem bmctlWord_fields (s : State) :
    bits s.bmctlWord 6 0 = s.bm.l.toNat ∧ bits s.bmctlWord 7 7 = 0 ∧ bits s.bmctlWord 14 8 = s.bm.d.toNat ∧
    bits s.bmctlWord 15 15 = 0 ∧ s.bmctlWord.getLsbD 16 = s.bm.b ∧ bits s.bmctlWord 31 17 = 0 := by
  have := s.bm.l.isLt
  have := s.bm.d.isLt
  have := s.bm.b.toNat_le
  refine ⟨?_, ?_, ?_, ?_, getLsbD_eq_of_bits ?_, ?_⟩ <;> rw [bits, State.bmctlWord, BitVec.toNat_ofNat] <;> omega

/-- The host's event is one step (20_memory.md R65). -/
theorem step_host {s : State} {op : HostOp} {rest : List Event} (h : s.agenda = .host op :: rest) :
    step s = .next (({ s with agenda := rest } : State).hostAct op) := by
  rw [step, h]
  rfl

theorem hostAct_write_ctrl (s : State) {addr : BitVec 16} (h : addr.toNat / 4 = 1) (v : Word) :
    s.hostAct (.write addr v) = s.writeCtrl v := by
  have hreg : regOfAddr addr = .ctrl := (regOfWord_ctrl_iff _).2 h
  rw [State.hostAct, State.hostWrite, hreg]

/-- Settles O19: a STATUS read returns the STATUS word, busy or not. -/
theorem statusReadsItsFields : Obligations.StatusReadsItsFields := by
  intro s addr h
  have hread : (s.hostRead addr).busData = s.statusWord := hostRead_busData (regOfAddr_of_word h) (.inr rfl)
  obtain ⟨hbusy, hrest⟩ := statusWord_fields s
  rw [hread, hbusy]
  exact ⟨busy_iff s, hrest⟩

/-- Settles O20: while BUSY = 0 each of the four reads returns its register's word. -/
theorem controlReadsTheirFields : Obligations.ControlReadsTheirFields := by
  intro s addr hidle
  have hread : ∀ m, addr.toNat / 4 = m → (s.hostRead addr).busData = s.regValue (regOfWord m) :=
    fun m h => hostRead_busData (regOfAddr_of_word h) (.inl hidle)
  refine ⟨fun h => ?_, fun h => ?_, fun h => ?_, fun h => ?_⟩ <;> rw [hread _ h]
  · exact cfgWord_fields s
  · exact bmctlWord_fields s
  · exact (BitVec.toNat_ofNat ..).trans (Nat.mod_eq_of_lt (s.errs.cnt.isLt.trans (by decide)))
  · rfl

/-- Settles O18: ID is read exactly always, and only CMD and CTRL writes do anything. -/
theorem idReadsTheConstant : Obligations.IdReadsTheConstant := by
  intro s addr v h
  have hreg : regOfAddr addr = .id := regOfAddr_of_word h
  refine ⟨hostRead_busData hreg (.inr rfl), ?_⟩
  rw [State.hostWrite, hreg]

/-- Settles O9: the step is the CTRL write, whose first two bits choose what it does. -/
theorem ctrlWritesResetOrClear : Obligations.CtrlWritesResetOrClear := by
  intro s addr v rest haddr hagenda
  rw [step_host hagenda, hostAct_write_ctrl _ haddr, State.writeCtrl]
  refine ⟨fun h0 => ?_, fun h0 h1 => ?_, fun h0 h1 => ?_, fun hidle => ?_⟩
  · rw [if_pos h0]; rfl
  · rw [if_neg (Bool.eq_false_iff.1 h0), if_pos h1]; rfl
  · rw [if_neg (Bool.eq_false_iff.1 h0), if_neg (Bool.eq_false_iff.1 h1)]
  · exact hostRead_busData (regOfAddr_of_word haddr) (.inl hidle)

end Sys2Proof.Machine
end

section
/-! Proofs of the statements about the CMD protocol and about a clean run (20_memory.md R56, R65;
70_reset_and_hazards.md R271, R274): what the core's turn does, then each event of a run simulated by the commands it
completes. -/

namespace Sys2Proof.Machine

/-! ### The core's turn -/

theorem step_coreTurn {s : State} {rest : List Event} (h : CoreTurn s rest) :
    step s = coreStep { s with agenda := rest } := by
  rcases h with h | ⟨h, rfl⟩
  · rw [step, h]; rfl
  · rw [step, h]
    show coreStep s = _
    rw [← h]

theorem coreStep_command {s : State} {w : Word} (h : s.activity = .command w) : coreStep s = runWord w s := by
  rw [coreStep, h]

/-- It is the core's turn with `w` in flight: the step executes it. -/
theorem step_command {s : State} {w : Word} {rest : List Event} (h : s.activity = .command w)
    (hturn : CoreTurn s rest) : step s = runWord w { s with agenda := rest } :=
  (step_coreTurn hturn).trans (coreStep_command h)

theorem runWord_error {s : State} {w : Word} {e : Illegal} (h : decode w = .error e) :
    runWord w s = .next (s.raise w .illegalCommand) := by
  rw [runWord, h]

theorem runWord_ok {s t : State} {w : Word} {i : Instr} (h : decode w = .ok i) (hi : exec i s = .next t) :
    runWord w s = .next t.retire := by
  simp only [runWord, h, hi]

/-- What a command leaves of the host's side and of OVR, whether it completes or faults. -/
theorem exec_host {s t : State} {i : Instr} (h : exec i s = .next t) :
    t.ovr = s.ovr ∧ t.agenda = s.agenda ∧ (s.activity = .idle → t.activity = .idle) := by
  rcases exec_ends i s with ⟨k, _, heq⟩ | ⟨u, hu, heq⟩ <;> rw [h] at heq <;> cases heq
  · exact ⟨rfl, rfl, fun _ => rfl⟩
  · obtain ⟨_, _, hovr, _, hact, hagenda, _⟩ := completes_record hu
    exact ⟨hovr, hagenda, hact.trans⟩

/-- ERR is only set by a command, never cleared. -/
theorem exec_err {s t : State} {i : Instr} (h : exec i s = .next t) (ht : t.err = false) : s.err = false := by
  rcases exec_ends i s with ⟨k, _, heq⟩ | ⟨u, hu, heq⟩ <;> rw [h] at heq <;> cases heq
  · cases ht
  · exact (completes_record hu).1.symm.trans ht

/-- The two ways a word in flight ends: its decode fault is recorded, or its command is executed. -/
theorem runWord_cases (w : Word) (s : State) :
    (∃ e, decode w = .error e ∧ runWord w s = .next (s.raise w .illegalCommand)) ∨
    (∃ i t, decode w = .ok i ∧ exec i s = .next t ∧ runWord w s = .next t.retire) := by
  cases h : decode w with
  | error e => exact .inl ⟨e, rfl, runWord_error h⟩
  | ok i =>
    obtain ⟨t, ht⟩ := exec_next i s
    exact .inr ⟨i, t, rfl, ht, runWord_ok h ht⟩

/-- Settles O6: the core's turn runs the word, which decodes. -/
theorem stepRunsTheDecodedCommand : Obligations.StepRunsTheDecodedCommand := by
  intro s w i rest hdec hact hturn
  obtain ⟨t, ht⟩ := exec_next i { s with agenda := rest }
  rw [step_command hact hturn, runWord_ok hdec ht, ht]
  rfl

theorem hostAct_write_cmd (s : State) {addr : BitVec 16} (h : addr.toNat / 4 = 3) (w : Word) :
    s.hostAct (.write addr w) = s.issue w := by
  have hreg : regOfAddr addr = .cmd := (regOfWord_cmd_iff _).2 h
  rw [State.hostAct, State.hostWrite, hreg]

theorem issue_lost {s : State} (w : Word) (h : s.activity ≠ .idle ∨ s.err = true) :
    s.issue w = { s with ovr := true } := by
  rcases issue_cases s w with ⟨_, heq⟩ | ⟨hidle, herr, _⟩
  · exact heq
  · simp [hidle, herr] at h

theorem issue_taken {s : State} (w : Word) (hidle : s.activity = .idle) (herr : s.err = false) :
    s.issue w = { s with activity := .command w } := by
  rcases issue_cases s w with ⟨h, _⟩ | ⟨_, _, heq⟩
  · simp [hidle, herr] at h
  · exact heq

/-- Settles O8: the two ways a CMD write goes, then the two ways the word in flight ends. -/
theorem cmdWritesFollowTheProtocol : Obligations.CmdWritesFollowTheProtocol := by
  refine ⟨fun s addr w rest haddr hagenda => ?_, fun s w rest hact hturn => ?_⟩
  · rw [step_host hagenda, hostAct_write_cmd _ haddr]
    exact ⟨fun h => congrArg _ (issue_lost w h), fun hidle herr => congrArg _ (issue_taken w hidle herr)⟩
  · rw [step_command hact hturn]
    rcases runWord_cases w { s with agenda := rest } with ⟨e, hdec, heq⟩ | ⟨i, u, hdec, hu, heq⟩
    · refine ⟨_, heq, rfl, rfl, rfl, fun j hj => ?_, fun _ _ => rfl⟩
      rw [hdec] at hj
      cases hj
    · obtain ⟨hovr, hagenda, _⟩ := exec_host hu
      refine ⟨_, heq, rfl, hagenda, hovr, fun j hj => ?_, fun e he => ?_⟩
      · rw [hdec] at hj
        cases hj
        exact ⟨u, hu, rfl⟩
      · rw [hdec] at he
        cases he

/-! ### A clean run

The host's view tells that BUSY = 0 before a CMD write, so the word is taken; and since neither CLR_ERR nor SOFT_RESET
is written, an error or a lost word would still show at the end. Each event of a clean run is then simulated by the
command it completes, if any. -/

/-- The word in flight. -/
def Activity.pending : Activity → List Word
  | .command w => [w]
  | .idle => []
  | .resetting => []

/-- What the commands of a run that are still to complete start from: the state a reset in progress will leave, or the
state as it is. BUSY and the host's side, which no command looks at, have their reset values. -/
def State.base (s : State) : State :=
  if s.activity = .resetting then State.reset else s.beside .idle [] 0 0

/-- No error and no lost word stands, but for what a reset in progress will clear. -/
def State.Healthy (s : State) : Prop := s.activity = .resetting ∨ (s.err = false ∧ s.ovr = false)

/-- From `s`, the words `ws` having been written to CMD, commands lead to `t`: they are what the word in flight at `s`
and `ws` decode to, but for the word in flight at `t`. -/
def Simulated (s : State) (ws : List Word) (t : State) : Prop :=
  s.Healthy ∧ ∃ is : List Instr,
    (s.activity.pending ++ ws).map decode = is.map .ok ++ t.activity.pending.map decode ∧
    runAll is s.base = .next t.base

theorem base_of_not_resetting {s : State} (h : s.activity ≠ .resetting) : s.base = s.beside .idle [] 0 0 :=
  if_neg h

theorem healthy_iff {s : State} (h : s.activity ≠ .resetting) : s.Healthy ↔ s.err = false ∧ s.ovr = false :=
  or_iff_right h

/-- A command's result does not depend on the host's side or on BUSY before it. -/
theorem exec_from_base {s t : State} {i : Instr} (h : exec i s = .next t) :
    exec i (s.beside .idle [] 0 0) = .next (t.beside .idle [] 0 0) := by
  have hsim := exec_beside s .idle [] 0 0 i
  obtain ⟨y, hy⟩ := exec_next i (s.beside .idle [] 0 0)
  have hidle : y.activity = .idle := (exec_host hy).2.2 rfl
  have hretire : y.retire = y := by rw [State.retire, ← hidle]
  rw [hy, h] at hsim
  rw [hy, ← hretire]
  exact hsim

theorem runAll_append {is js : List Instr} {s u : State} (h : runAll is s = .next u) :
    runAll (is ++ js) s = runAll js u := by
  induction is generalizing s with
  | nil => cases h; rfl
  | cons i is ih =>
    obtain ⟨x, hx⟩ := exec_next i s
    simp only [runAll, hx] at h
    simp only [List.cons_append, runAll, hx, ih h]

theorem simulated_trans {s u t : State} {ws ws' : List Word} (h : Simulated s ws u) (h' : Simulated u ws' t) :
    Simulated s (ws ++ ws') t := by
  obtain ⟨hs, is, hdec, hrun⟩ := h
  obtain ⟨_, js, hdec', hrun'⟩ := h'
  refine ⟨hs, is ++ js, ?_, (runAll_append hrun).trans hrun'⟩
  calc (s.activity.pending ++ (ws ++ ws')).map decode
      = (s.activity.pending ++ ws).map decode ++ ws'.map decode := by simp
    _ = is.map .ok ++ (u.activity.pending ++ ws').map decode := by simp [hdec]
    _ = (is ++ js).map .ok ++ t.activity.pending.map decode := by simp [hdec']

/-- A state simulates itself, whatever the host's side. -/
theorem simulated_hostSide {s : State} (b : Word) (n : Nat) (h : s.Healthy) :
    Simulated s [] { s with busData := b, draws := n } :=
  ⟨h, [], by simp, rfl⟩

/-- The core's completion runs the word in flight as its command, which did not fault, or ends the reset. -/
theorem coreStep_simulated {s t : State} (hstep : coreStep s = .next t) (ht : t.Healthy) : Simulated s [] t := by
  cases hact : s.activity with
  | idle =>
    rw [coreStep, hact] at hstep
    cases hstep
    exact simulated_hostSide s.busData s.draws ht
  | resetting =>
    rw [coreStep, hact] at hstep
    cases hstep
    exact ⟨.inl hact, [], by rw [hact]; rfl, congrArg _ (if_pos hact)⟩
  | command w =>
    rw [coreStep_command hact] at hstep
    rcases runWord_cases w s with ⟨e, _, heq⟩ | ⟨i, u, hdec, hu, heq⟩ <;> rw [hstep] at heq <;> cases heq
    · rcases ht with h | ⟨h, _⟩ <;> cases h
    · obtain ⟨herr, hovr⟩ := (healthy_iff (s := u.retire) (by simp)).1 ht
      refine ⟨.inr ⟨exec_err hu herr, (exec_host hu).1.symm.trans hovr⟩, [i], ?_, ?_⟩
      · rw [hact]
        exact congrArg (· :: []) hdec
      · rw [base_of_not_resetting (by simp [hact]), runAll, exec_from_base hu]
        rfl

/-- A word written while BUSY = 0 in a run without a lost word is in flight. -/
theorem issue_simulated {s : State} {w : Word} (hidle : s.activity = .idle) (ht : (s.issue w).Healthy) :
    Simulated s [w] (s.issue w) := by
  rcases issue_cases s w with ⟨_, heq⟩ | ⟨_, herr, heq⟩ <;> rw [heq] at ht ⊢
  · rcases ht with h | ⟨_, h⟩
    · rw [hidle] at h
      cases h
    · cases h
  · obtain ⟨_, hovr⟩ := (healthy_iff (by simp)).1 ht
    refine ⟨.inr ⟨herr, hovr⟩, [], by rw [hidle]; rfl, ?_⟩
    rw [base_of_not_resetting (by simp [hidle]), base_of_not_resetting (by simp)]
    rfl

/-! ### The host's view along a run -/

/-- The two writes a run has. -/
theorem afterWrite_cases {v v' : RunView} {r : HostReg} {w : Word} (h : v.afterWrite r w = some v') :
    (r = .cmd ∧ v.mayIssue = true ∧ v' = { v with mayIssue := false, done := false }) ∨
    (r = .ctrl ∧ v' = { mayIssue := v.mayIssue && !w.getLsbD 0, done := false,
                        cleared := v.cleared || w.getLsbD 0 || w.getLsbD 1 }) := by
  unfold RunView.afterWrite at h
  split at h
  · split at h
    · next hmay =>
      cases h
      exact .inl ⟨rfl, hmay, rfl⟩
    · cases h
  · cases h
    exact .inr ⟨rfl, rfl⟩
  · cases h

/-- A read either shows BUSY = 0 or adds nothing to the view. -/
theorem afterRead_cases (v : RunView) (r : HostReg) (b : Word) :
    (r = .status ∧ b.getLsbD 0 = false ∧ v.afterRead r b = { v with mayIssue := true, done := true }) ∨
    v.afterRead r b = v := by
  rw [RunView.afterRead]
  split
  · next h => exact .inl ⟨h.1, h.2, rfl⟩
  · exact .inr rfl

/-- A CLR_ERR or SOFT_RESET write is never forgotten. -/
theorem after_cleared {v v' : RunView} {t : State} {ev : Event} (h : v.after t ev = some v')
    (hv : v'.cleared = false) : v.cleared = false := by
  cases ev with
  | core => cases h; exact hv
  | host op =>
    cases op with
    | resetInput => cases h
    | read addr =>
      cases h
      rcases afterRead_cases v (regOfAddr addr) t.busData with ⟨_, _, heq⟩ | heq <;> rwa [heq] at hv
    | write addr w =>
      rcases afterWrite_cases h with ⟨_, _, rfl⟩ | ⟨_, rfl⟩
      · exact hv
      · obtain ⟨⟨hclear, _⟩, _⟩ : (v.cleared = false ∧ _) ∧ _ := by simpa using hv
        exact hclear

theorem hostRead_activity (s : State) (addr : BitVec 16) : (s.hostRead addr).activity = s.activity := by
  rw [hostRead_frame]

/-- A STATUS read with bit 0 clear shows that nothing is in progress. -/
theorem idle_of_status_read {s : State} {addr : BitVec 16} (hr : regOfAddr addr = .status)
    (hb : (s.hostRead addr).busData.getLsbD 0 = false) : s.activity = .idle := by
  rw [hostRead_status_bit0 hr] at hb
  by_contra h
  rw [(busy_iff s).2 h] at hb
  cases hb

/-- A CTRL write that does not begin a reset changes nothing of what is in progress. -/
theorem writeCtrl_activity {s : State} {w : Word} (h : w.getLsbD 0 = false) :
    (s.writeCtrl w).activity = s.activity := by
  rcases writeCtrl_cases s w with ⟨h0, _⟩ | ⟨_, _, heq⟩ | ⟨_, _, heq⟩
  · rw [h] at h0
    cases h0
  · rw [heq]; rfl
  · rw [heq]

theorem writeCtrl_of_clear {s : State} {w : Word} (h0 : w.getLsbD 0 = false) (h1 : w.getLsbD 1 = false) :
    s.writeCtrl w = s := by
  rw [State.writeCtrl, h0, h1]
  rfl

/-- Where the view allows a CMD write, BUSY = 0: an invariant of a run. -/
theorem after_mayIssue {v v' : RunView} {s t : State} {ev : Event} (hstep : runEvent s ev = .next t)
    (h : v.after t ev = some v') (hs : v.mayIssue = true → s.activity = .idle) (hv : v'.mayIssue = true) :
    t.activity = .idle := by
  cases ev with
  | core =>
    cases h
    have hidle := hs hv
    rw [runEvent, coreStep, hidle] at hstep
    cases hstep
    exact hidle
  | host op =>
    cases hstep
    cases op with
    | resetInput => cases h
    | read addr =>
      cases h
      refine (hostRead_activity s addr).trans ?_
      rcases afterRead_cases v (regOfAddr addr) (s.hostRead addr).busData with ⟨hr, hb, _⟩ | heq
      · exact idle_of_status_read hr hb
      · exact hs (heq ▸ hv)
    | write addr w =>
      rcases afterWrite_cases h with ⟨_, _, rfl⟩ | ⟨hr, rfl⟩
      · cases hv
      · obtain ⟨hmay, h0⟩ : v.mayIssue = true ∧ w.getLsbD 0 = false := by simpa using hv
        rw [hostAct_write_ctrl s ((regOfWord_ctrl_iff _).1 hr), writeCtrl_activity h0, hs hmay]

/-! ### The simulation -/

/-- Each event of a clean run is simulated by the command it completes, if any. -/
theorem runEvent_simulated {v v' : RunView} {s t : State} {ev : Event} (hstep : runEvent s ev = .next t)
    (h : v.after t ev = some v') (hs : v.mayIssue = true → s.activity = .idle) (hv : v'.cleared = false)
    (ht : t.Healthy) : Simulated s (issuedWords [ev]) t := by
  cases ev with
  | core => exact coreStep_simulated hstep ht
  | host op =>
    cases hstep
    cases op with
    | resetInput => cases h
    | read addr =>
      change (s.hostRead addr).Healthy at ht
      show Simulated s [] (s.hostRead addr)
      rw [hostRead_frame] at ht ⊢
      exact simulated_hostSide _ _ ht
    | write addr w =>
      rcases afterWrite_cases h with ⟨hr, hmay, _⟩ | ⟨hr, rfl⟩
      · rw [hostAct_write_cmd s ((regOfWord_cmd_iff _).1 hr)] at ht ⊢
        rw [issuedWords, if_pos hr]
        exact issue_simulated (hs hmay) ht
      · obtain ⟨⟨_, h0⟩, h1⟩ : (v.cleared = false ∧ w.getLsbD 0 = false) ∧ w.getLsbD 1 = false := by
          simpa using hv
        rw [hostAct_write_ctrl s ((regOfWord_ctrl_iff _).1 hr), writeCtrl_of_clear h0 h1] at ht ⊢
        rw [issuedWords, hr]
        exact simulated_hostSide s.busData s.draws ht

theorem issuedWords_cons (ev : Event) (evs : List Event) :
    issuedWords (ev :: evs) = issuedWords [ev] ++ issuedWords evs := by
  cases ev with
  | core => rfl
  | host op =>
    cases op with
    | read | resetInput => rfl
    | write addr w => simp only [issuedWords]; split <;> rfl

/-- The events of a clean run are simulated by its commands; read backwards, an error or a lost word at any point would
still stand at the end. -/
theorem runOn_simulated {v v' : RunView} {s t : State} {evs : List Event} (h : runOn v s evs = some (v', t))
    (hs : v.mayIssue = true → s.activity = .idle) (hv : v'.cleared = false) (ht : t.Healthy) :
    v.cleared = false ∧ Simulated s (issuedWords evs) t := by
  induction evs generalizing v s with
  | nil =>
    cases h
    exact ⟨hv, simulated_hostSide t.busData t.draws ht⟩
  | cons ev evs ih =>
    obtain ⟨u, v1, hstep, hafter, hrest⟩ := runOn_cons h
    change runEvent { s with agenda := [] } ev = .next u at hstep
    obtain ⟨hv1, hsim⟩ := ih hrest (after_mayIssue hstep hafter hs)
    have hfirst : Simulated s (issuedWords [ev]) u := 
      runEvent_simulated (s := { s with agenda := [] }) hstep hafter hs hv1 hsim.1
    rw [issuedWords_cons]
    exact ⟨after_cleared hafter hv1, simulated_trans hfirst hsim⟩

theorem coreStep_agenda {s t : State} (h : coreStep s = .next t) : t.agenda = s.agenda := by
  rw [coreStep] at h
  split at h
  · cases h; rfl
  · next w _ =>
    rcases runWord_cases w s with ⟨_, _, heq⟩ | ⟨i, u, _, hu, heq⟩ <;> rw [h] at heq <;> cases heq
    · rfl
    · exact (exec_host hu).2.1
  · cases h; rfl

theorem hostAct_agenda (s : State) (op : HostOp) : (s.hostAct op).agenda = s.agenda := by
  rcases hostAct_cases s op with ⟨b, n, h⟩ | ⟨w, h⟩ | h | h <;> rw [h]
  · rcases issue_cases s w with ⟨_, h⟩ | ⟨_, _, h⟩ <;> rw [h]
  · rfl
  · rfl

/-- An event is no more than itself: it leaves the rest of the agenda. -/
theorem runEvent_agenda {s t : State} {ev : Event} (h : runEvent s ev = .next t) : t.agenda = s.agenda := by
  cases ev with
  | core => exact coreStep_agenda h
  | host op => cases h; exact hostAct_agenda s op

theorem runOn_agenda {v v' : RunView} {s t : State} {evs : List Event} (h : runOn v s evs = some (v', t))
    (hs : s.agenda = []) : t.agenda = [] := by
  induction evs generalizing v s with
  | nil => cases h; exact hs
  | cons ev evs ih =>
    obtain ⟨u, v1, hstep, _, hrest⟩ := runOn_cons h
    exact ih hrest (runEvent_agenda (s := { s with agenda := [] }) hstep)

theorem ranClean_iff (t : State) : t.ranClean = true ↔ t.activity = .idle ∧ t.err = false ∧ t.ovr = false := by
  rw [State.ranClean, State.busy]
  cases t.activity <;> simp

/-- Settles O60: the events after the reset are simulated by the run's commands, from the state the reset leaves. -/
theorem cleanRunsExecuteTheirCommandsInOrder : Obligations.CleanRunsExecuteTheirCommandsInOrder := by
  rintro s t op evs ⟨v, hrun, _, hv, hclean⟩
  obtain ⟨hidle, herr⟩ := (ranClean_iff t).1 hclean
  have hon := hostRun_start hrun
  have hagenda : t.agenda = [] := runOn_agenda hon rfl
  obtain ⟨_, _, is, hdec, hall⟩ := runOn_simulated hon (fun h => nomatch h) hv (.inr herr)
  refine ⟨is, t.base, ?_, hall, ?_⟩
  · simpa [hidle, Activity.pending] using hdec
  · rw [base_of_not_resetting (by simp [hidle]), State.beside, ← hidle, ← hagenda]

end Sys2Proof.Machine
end

section
/-! Proofs of the statements about the host register map (20_memory.md R51 to R63): which offsets name no register, what
a read returns and leaves alone, and which writes do anything. -/

namespace Sys2Proof.Machine

/-- No register stands at the word numbers of R63. -/
theorem regOfWord_unmapped {m : Nat}
    (h : (0x20 / 4 ≤ m ∧ m < 0x40 / 4) ∨ (0xD4 / 4 ≤ m ∧ m < 0x100 / 4) ∨ (0x1E8 / 4 ≤ m ∧ m < 0x200 / 4) ∨
      (0x2E8 / 4 ≤ m ∧ m < 0x300 / 4) ∨ (0x3E8 / 4 ≤ m ∧ m < 0x4000 / 4) ∨ 0x6A00 / 4 ≤ m) :
    regOfWord m = .unmapped := by
  rw [regOfWord, controlReg_none (by omega), windowReg, windowEntry_none (base := 0x40) (by omega),
    windowEntry_none (base := 0x80) (by omega), windowEntry_none (base := 0xC0) (by omega),
    windowEntry_none (base := 0x100) (by omega), windowEntry_none (base := 0x200) (by omega),
    windowEntry_none (base := 0x300) (by omega), windowEntry_none (base := 0x4000) (by omega),
    windowEntry_none (base := 0x6000) (by omega)]
  rfl

/-- Only CTRL and CMD can be written (20_memory.md R59). -/
theorem hostWrite_ignored (s : State) {addr : BitVec 16} (v : Word) (hctrl : addr.toNat / 4 ≠ 1)
    (hcmd : addr.toNat / 4 ≠ 3) : s.hostWrite addr v = s := by
  unfold State.hostWrite
  split
  · next h => exact absurd ((regOfWord_cmd_iff _).1 h) hcmd
  · next h => exact absurd ((regOfWord_ctrl_iff _).1 h) hctrl
  · rfl

/-- A read while BUSY = 0 draws no unspecified value. -/
theorem hostRead_draws {s : State} (addr : BitVec 16) (h : s.activity = .idle) :
    (s.hostRead addr).draws = s.draws := by
  simp [State.hostRead, State.busy, h]

/-- Bits [1:0] of the offset do not count in the word number (20_memory.md R51). -/
theorem wordNumber_mask (addr : BitVec 16) : (addr &&& 0xFFFC).toNat / 4 = addr.toNat / 4 := by
  have hlt := addr.isLt
  calc (addr &&& 0xFFFC).toNat / 4
      = (addr.toNat &&& 0xFFFC) >>> 2 := by rw [Nat.shiftRight_eq_div_pow]; rfl
    _ = addr.toNat >>> 2 &&& (2 ^ 14 - 1) := Nat.shiftRight_and_distrib
    _ = addr.toNat / 4 := by
      rw [Nat.and_two_pow_sub_one_eq_mod, Nat.shiftRight_eq_div_pow]
      exact Nat.mod_eq_of_lt (by omega)

theorem regOfAddr_mask (addr : BitVec 16) : regOfAddr (addr &&& 0xFFFC) = regOfAddr addr := by
  rw [regOfAddr, regOfAddr, wordNumber_mask]

/-- An entry of a data window, at word number `m` beyond the control registers, holds `n`: it reads `n` while BUSY = 0,
and a write to it is ignored. -/
theorem window_entry {s : State} {addr : BitVec 16} {r : HostReg} {m n : Nat} (v : Word) (hidle : s.activity = .idle)
    (haddr : addr.toNat = 4 * m) (hm : 8 ≤ m) (hr : regOfWord m = r) (hval : s.regValue r = BitVec.ofNat 32 n)
    (hn : n < 128) : (s.hostRead addr).busData.toNat = n ∧ s.hostWrite addr v = s := by
  have hword : addr.toNat / 4 = m := by omega
  refine ⟨?_, hostWrite_ignored s v (by omega) (by omega)⟩
  rw [hostRead_busData ((regOfAddr_of_word hword).trans hr) (.inl hidle), hval, BitVec.toNat_ofNat]
  exact Nat.mod_eq_of_lt (by omega)

/-- A degree window entry holds the stored degree, which is the degree of a canonical polynomial. -/
theorem degree_entry {s : State} {addr : BitVec 16} {r : HostReg} {m : Nat} {q : Poly} (v : Word)
    (hidle : s.activity = .idle) (haddr : addr.toNat = 4 * m) (hm : 8 ≤ m) (hr : regOfWord m = r)
    (hval : s.regValue r = BitVec.ofNat 32 q.degReg.toNat) :
    (s.hostRead addr).busData.toNat = q.degReg.toNat ∧ s.hostWrite addr v = s ∧
      (q.Canonical → (s.hostRead addr).busData.toNat = q.deg) := by
  obtain ⟨hread, hwrite⟩ := window_entry v hidle haddr hm hr hval q.degReg.isLt
  exact ⟨hread, hwrite, fun hq => hread.trans ((canonical_iff q).1 hq)⟩

/-- A field element fits a window's word. -/
theorem elem_lt_128 (x : Elem) : x.val < 128 := by omega

/-- A coefficient window entry holds its cell. -/
theorem cell_val (q : Poly) (j : Fin 128) : BitVec.ofNat 32 q.c[j].val = BitVec.ofNat 32 (q.coeff j.val).val := by
  rw [coeff_eq, dif_pos j.isLt]
  rfl

/-- Settles O21: each window's entries stand at the word numbers from its base on. -/
theorem windowsReadTheirCells : Obligations.WindowsReadTheirCells := by
  intro s addr v hidle
  refine ⟨fun i h => ?_, fun i h => ?_, fun w h => ?_, fun i h => ?_, fun i h => ?_, fun i h => ?_,
    fun r j h => ?_, fun w j h => ?_⟩
  · exact window_entry v hidle (by omega) (by omega) (regOfWord_freg i) rfl (elem_lt_128 _)
  · exact degree_entry v hidle (by omega) (by omega) (regOfWord_pdeg i) rfl
  · exact degree_entry v hidle (by omega) (by omega) (regOfWord_wdeg w) rfl
  · exact window_entry v hidle (by omega) (by omega) (regOfWord_errpos i) rfl (by omega)
  · exact window_entry v hidle (by omega) (by omega) (regOfWord_errloc i) rfl (elem_lt_128 _)
  · exact window_entry v hidle (by omega) (by omega) (regOfWord_errmag i) rfl (elem_lt_128 _)
  · exact window_entry v hidle (by omega) (by omega) (regOfWord_pcoef r j) (cell_val _ j) (elem_lt_128 _)
  · exact window_entry v hidle (by omega) (by omega) (regOfWord_wcoef w j) (cell_val _ j) (elem_lt_128 _)

/-- Settles O22: unmapped offsets read exactly always, CTRL and CMD while BUSY = 0. -/
theorem unmappedReadsAreZeroAndOtherWritesIgnored : Obligations.UnmappedReadsAreZeroAndOtherWritesIgnored := by
  intro s addr v
  refine ⟨fun h => ?_, hostWrite_ignored s v, fun h hidle => ?_⟩
  · have hreg : regOfAddr addr = .unmapped := regOfWord_unmapped (by omega)
    exact hostRead_busData hreg (.inr rfl)
  · rcases h with h | h
    · exact hostRead_busData (regOfAddr_of_word h) (.inl hidle)
    · exact hostRead_busData (regOfAddr_of_word h) (.inl hidle)

/-- Settles O23: the step is the read, whose frame is the bus word and the draw counter. -/
theorem readsHaveNoSideEffects : Obligations.ReadsHaveNoSideEffects := by
  intro s t addr rest hagenda hstep
  rw [step_host hagenda] at hstep
  cases hstep
  exact ⟨hostRead_frame _ addr, hostRead_draws (s := { s with agenda := rest }) addr⟩

/-- Settles O24: both accesses look at the register the offset names only. -/
theorem lowAddressBitsAreIgnored : Obligations.LowAddressBitsAreIgnored := by
  intro s addr v
  constructor
  · rw [State.hostRead, State.hostRead, regOfAddr_mask]
  · unfold State.hostWrite
    rw [regOfAddr_mask]

end Sys2Proof.Machine
end

section
/-! Proofs of the statements about the decoder and the encoder (30_encoding.md R80 to R88). Below the opcode a command
word is four fields, of which its format keeps some and wants the others 0; on such fields the opcodes of R86 and the
commands correspond. -/

namespace Sys2Proof

open Machine

/-! ### The fields of a command word (30_encoding.md R82) -/

/-- The fields of a command word below its opcode; `low` is `imm`, whose top four bits are `c`. -/
structure Fields where
  d : Fin 16
  a : Fin 16
  b : Fin 16
  low : BitVec 14

/-- The `c` field. -/
def Fields.c (f : Fields) : Fin 16 := Fin.ofNat 16 (f.low.toNat / 2 ^ 10)

/-- The command word of an opcode and fields. -/
def Fields.word (f : Fields) (op : Nat) : Word := pack op f.d f.a f.b f.low.toNat

/-- The fields of a word. -/
def Fields.ofWord (w : Word) : Fields := ⟨regField w 22, regField w 18, regField w 14, immField w⟩

/-- What `assemble` makes of the fields. -/
def Fields.assemble (f : Fields) (op : Nat) : Except Illegal Instr :=
  Sys2Proof.assemble op f.d f.a f.b f.c f.low

theorem Fields.word_ofWord (w : Word) : (Fields.ofWord w).word (bits w 31 26) = w := (eq_pack w).symm

theorem Fields.ofWord_word {op : Nat} (f : Fields) (hop : op < 64) : Fields.ofWord (f.word op) = f := by
  obtain ⟨d, a, b, low⟩ := f
  simp only [Fields.ofWord, Fields.word, regField_pack_d d a b hop low.isLt, regField_pack_a d a b hop low.isLt,
    regField_pack_b d a b hop low.isLt, immField_pack d a b low hop]

theorem Fields.bits_word_op {op : Nat} (f : Fields) (hop : op < 64) : bits (f.word op) 31 26 = op :=
  bits_pack_op _ _ _ hop f.low.isLt

theorem bits_op_lt (w : Word) : bits w 31 26 < 64 := by rw [bits]; omega

/-- The `c` field of a word is the top of its low field. -/
theorem regField_c (w : Word) : regField w 10 = (Fields.ofWord w).c := by
  apply Fin.ext
  simp only [regField, Fields.c, Fields.ofWord, immField, bits, Fin.val_ofNat, BitVec.toNat_ofNat]
  omega

/-- The low field that holds `c` alone. -/
def lowOfC (c : Fin 16) : BitVec 14 := BitVec.ofNat 14 (cLow c)

theorem toNat_lowOfC (c : Fin 16) : (lowOfC c).toNat = cLow c := by
  rw [lowOfC, BitVec.toNat_ofNat, Nat.mod_eq_of_lt (cLow_lt c)]

theorem c_lowOfC (d a b c : Fin 16) : Fields.c ⟨d, a, b, lowOfC c⟩ = c := by
  apply Fin.ext
  simp only [Fields.c, toNat_lowOfC, cLow, Fin.val_ofNat]
  omega

/-! ### What a format keeps (30_encoding.md R83) -/

/-- The fields with 0 in every reserved one of the format. -/
def Format.keep : Format → Fields → Fields
  | .n, _ => ⟨0, 0, 0, 0#14⟩
  | .d, f => ⟨f.d, 0, 0, 0#14⟩
  | .a, f => ⟨0, f.a, 0, 0#14⟩
  | .da, f => ⟨f.d, f.a, 0, 0#14⟩
  | .dab, f => ⟨f.d, f.a, f.b, 0#14⟩
  | .ab, f => ⟨0, f.a, f.b, 0#14⟩
  | .di, f => ⟨f.d, 0, 0, f.low⟩
  | .dai, f => ⟨f.d, f.a, 0, f.low⟩
  | .dcab, f => ⟨f.d, f.a, f.b, lowOfC f.c⟩
  | .dca, f => ⟨f.d, f.a, 0, lowOfC f.c⟩
  | .i, f => ⟨0, 0, 0, f.low⟩

/-- The low field holds `c` alone when its ten low bits are 0. -/
theorem lowOfC_c_eq_iff (f : Fields) : lowOfC f.c = f.low ↔ f.low.toNat % 2 ^ 10 = 0 := by
  have h := f.low.isLt
  rw [← BitVec.toNat_inj, toNat_lowOfC, cLow, Fields.c, Fin.val_ofNat]
  omega

/-- A word's reserved fields are 0 exactly when its format keeps all its fields. -/
theorem reservedClear_word {op : Nat} (fmt : Format) (f : Fields) (hop : op < 64) :
    fmt.reservedClear (f.word op) = true ↔ fmt.keep f = f := by
  have hc := lowOfC_c_eq_iff f
  obtain ⟨d, a, b, low⟩ := f
  have hlow := low.isLt
  cases fmt <;>
    simp only [Format.reservedClear, Format.reserved, Format.keep, List.all_cons, List.all_nil, Bool.and_true,
      Bool.and_eq_true, decide_eq_true_eq, Fields.mk.injEq, true_and, and_true, bits, Fields.word,
      toNat_pack d a b hop hlow, hc, ← BitVec.toNat_inj, Fin.ext_iff, Fin.val_zero, BitVec.toNat_ofNat] <;>
    omega

/-! ### The decoder on the word of some fields (30_encoding.md R80) -/

theorem formatOf_lt {op : Nat} {fmt : Format} (h : formatOf op = some fmt) : op < 64 := by
  unfold formatOf at h
  split at h
  any_goals decide
  cases h

theorem decode_of_formatOf_none {w : Word} (h : formatOf (bits w 31 26) = none) :
    decode w = .error .reservedOpcode := by
  rw [decode, h]

theorem decode_of_formatOf_some {w : Word} {fmt : Format} (h : formatOf (bits w 31 26) = some fmt) :
    decode w = if fmt.reservedClear w then (Fields.ofWord w).assemble (bits w 31 26)
      else .error .reservedBits := by
  rw [decode, h, regField_c]
  rfl

/-- With its reserved fields 0, the word of some fields decodes to the command of the fields. -/
theorem decode_word_kept {op : Nat} {fmt : Format} {f : Fields} (h : formatOf op = some fmt) (hkeep : fmt.keep f = f) :
    decode (f.word op) = f.assemble op := by
  have hlt := formatOf_lt h
  have hop := f.bits_word_op hlt
  rw [decode_of_formatOf_some (hop.symm ▸ h), if_pos ((reservedClear_word fmt f hlt).2 hkeep), f.ofWord_word hlt, hop]

/-! ### The fields of the words a command encodes to (30_encoding.md R85, R86) -/

/-- The low field of a BMGET selector. -/
def lowOfSel (sel : WSel) : BitVec 14 := BitVec.ofNat 14 (immOfSel sel)

theorem toNat_lowOfSel (sel : WSel) : (lowOfSel sel).toNat = immOfSel sel := by cases sel <;> rfl

theorem selOfImm_lowOfSel (sel : WSel) : selOfImm (lowOfSel sel) = some sel := by cases sel <;> rfl

/-- The low field of an RSCFG pair. -/
def lowOfPair (n k : BitVec 7) : BitVec 14 := BitVec.ofNat 14 (n.toNat * 2 ^ 7 + k.toNat)

theorem toNat_lowOfPair (n k : BitVec 7) : (lowOfPair n k).toNat = n.toNat * 2 ^ 7 + k.toNat := by
  rw [lowOfPair, BitVec.toNat_ofNat, Nat.mod_eq_of_lt (by omega)]

theorem lowOfPair_high (n k : BitVec 7) : BitVec.ofNat 7 ((lowOfPair n k).toNat / 2 ^ 7) = n := by
  apply BitVec.eq_of_toNat_eq
  rw [toNat_lowOfPair, BitVec.toNat_ofNat]
  omega

theorem lowOfPair_low (n k : BitVec 7) : BitVec.ofNat 7 (lowOfPair n k).toNat = k := by
  apply BitVec.eq_of_toNat_eq
  rw [toNat_lowOfPair, BitVec.toNat_ofNat]
  omega

theorem decode_encode_of_fields {i : Instr} {op : Nat} {fmt : Format} (f : Fields) (henc : encode i = f.word op)
    (hfmt : formatOf op = some fmt) (hkeep : fmt.keep f = f) (hi : f.assemble op = .ok i) :
    decode (encode i) = .ok i := by
  rw [henc, decode_word_kept hfmt hkeep, hi]

theorem decode_encode_pdivmod {d c : PReg} (a b : PReg) (h : d ≠ c) :
    decode (encode (.pdivmod d c a b)) = .ok (.pdivmod d c a b) := by
  have hc := c_lowOfC d a b c
  refine decode_encode_of_fields ⟨d, a, b, lowOfC c⟩ (congrArg (pack 0x1C d a b) (toNat_lowOfC c).symm) rfl ?_ ?_
  · rw [Format.keep, hc]
  · rw [Fields.assemble, hc]
    exact if_neg h

theorem decode_encode_rsbm {d c : PReg} (a : PReg) (h : d ≠ c) :
    decode (encode (.rsbm d c a)) = .ok (.rsbm d c a) := by
  have hc := c_lowOfC d a 0 c
  refine decode_encode_of_fields ⟨d, a, 0, lowOfC c⟩ (congrArg (pack 0x24 d a 0) (toNat_lowOfC c).symm) rfl ?_ ?_
  · rw [Format.keep, hc]
  · rw [Fields.assemble, hc]
    exact if_neg h

theorem decode_encode_rscfg (n k : BitVec 7) : decode (encode (.rscfg n k)) = .ok (.rscfg n k) := by
  refine decode_encode_of_fields ⟨0, 0, 0, lowOfPair n k⟩ (congrArg (pack 0x20 0 0 0) (toNat_lowOfPair n k).symm)
    rfl rfl ?_
  simp only [Fields.assemble, assemble, lowOfPair_high, lowOfPair_low]

theorem decode_encode_bmget (d : PReg) (sel : WSel) : decode (encode (.bmget d sel)) = .ok (.bmget d sel) := by
  refine decode_encode_of_fields ⟨d, 0, 0, lowOfSel sel⟩ (congrArg (pack 0x25 d 0 0) (toNat_lowOfSel sel).symm)
    rfl rfl ?_
  simp only [Fields.assemble, assemble, selOfImm_lowOfSel]

/-- Decoding the word of a command, format by format: its format keeps the fields the command fills. -/
theorem decode_encode : ∀ {i : Instr}, i.wellFormed = true → decode (encode i) = .ok i
  | .nop, _ | .bmstep, _ => decode_word_kept (f := ⟨0, 0, 0, 0⟩) rfl rfl
  | .fli d imm, _ | .ppushi d imm, _ => decode_word_kept (f := ⟨d, 0, 0, imm⟩) rfl rfl
  | .fmov d a, _ | .fneg d a, _ | .finv d a, _ | .pmov d a, _ | .ppush d a, _ | .rssyn d a, _ =>
    decode_word_kept (f := ⟨d, a, 0, 0⟩) rfl rfl
  | .fadd d a b, _ | .fsub d a b, _ | .fmul d a b, _ | .fdiv d a b, _ | .fpowf d a b, _ | .padd d a b, _
  | .psub d a b, _ | .pmul d a b, _ | .pscale d a b, _ | .peval d a b, _ =>
    decode_word_kept (f := ⟨d, a, b, 0⟩) rfl rfl
  | .fpow d a imm, _ | .psetc d a imm, _ | .pgetc d a imm, _ | .pshl d a imm, _ | .pshr d a imm, _ =>
    decode_word_kept (f := ⟨d, a, 0, imm⟩) rfl rfl
  | .feq a b, _ | .peq a b, _ => decode_word_kept (f := ⟨0, a, b, 0⟩) rfl rfl
  | .pclr d, _ | .rsepoly d, _ => decode_word_kept (f := ⟨d, 0, 0, 0⟩) rfl rfl
  | .bminit a, _ | .rsroot a, _ | .rsforney a, _ => decode_word_kept (f := ⟨0, a, 0, 0⟩) rfl rfl
  | .pdivmod _ _ a b, h => decode_encode_pdivmod a b (of_decide_eq_true h)
  | .rsbm _ _ a, h => decode_encode_rsbm a (of_decide_eq_true h)
  | .rscfg n k, _ => decode_encode_rscfg n k
  | .bmget d sel, _ => decode_encode_bmget d sel

/-- Settles O1: each format keeps the fields its commands fill. -/
theorem decodesEveryEncodedCommand : Obligations.DecodesEveryEncodedCommand := fun _ => decode_encode

/-! ### The command of some fields -/

/-- The checks of R80 on the operands: BMGET's selector, and the two destinations of PDIVMOD and RSBM. -/
def Fields.Refused (f : Fields) (op : Nat) : Prop :=
  (op = 0x25 ∧ f.low.toNat > 4) ∨ ((op = 0x1C ∨ op = 0x24) ∧ f.d = f.c)

/-- The opcode's command of the fields, whose word holds the fields the format keeps. -/
def Fields.Accepted (f : Fields) (op : Nat) (fmt : Format) : Prop :=
  ∃ i, f.assemble op = .ok i ∧ i.wellFormed = true ∧ encode i = (fmt.keep f).word op

theorem selOfImm_eq_none {imm : BitVec 14} (h : imm.toNat > 4) : selOfImm imm = none := by
  unfold selOfImm
  split
  any_goals omega
  rfl

theorem selOfImm_eq_some {imm : BitVec 14} (h : ¬ imm.toNat > 4) :
    ∃ sel, selOfImm imm = some sel ∧ immOfSel sel = imm.toNat := by
  have hcases : imm.toNat = 0 ∨ imm.toNat = 1 ∨ imm.toNat = 2 ∨ imm.toNat = 3 ∨ imm.toNat = 4 := by omega
  rcases hcases with h | h | h | h | h <;> rw [selOfImm, h] <;> exact ⟨_, rfl, rfl⟩

theorem assemble_refused {f : Fields} {op : Nat} (h : f.Refused op) : ∃ e, f.assemble op = .error e := by
  rcases h with ⟨rfl, h⟩ | ⟨rfl | rfl, h⟩
  · exact ⟨.selector, by simp only [Fields.assemble, assemble, selOfImm_eq_none h]⟩
  · exact ⟨.sameDestination, if_pos h⟩
  · exact ⟨.sameDestination, if_pos h⟩

theorem accepted_pdivmod {f : Fields} (h : f.d ≠ f.c) : f.Accepted 0x1C .dcab :=
  ⟨.pdivmod f.d f.c f.a f.b, if_neg h, decide_eq_true h,
    congrArg (pack 0x1C f.d f.a f.b) (toNat_lowOfC f.c).symm⟩

theorem accepted_rsbm {f : Fields} (h : f.d ≠ f.c) : f.Accepted 0x24 .dca :=
  ⟨.rsbm f.d f.c f.a, if_neg h, decide_eq_true h, congrArg (pack 0x24 f.d f.a 0) (toNat_lowOfC f.c).symm⟩

theorem accepted_rscfg (f : Fields) : f.Accepted 0x20 .i := by
  refine ⟨_, rfl, rfl, congrArg (pack 0x20 0 0 0) ?_⟩
  have h := f.low.isLt
  simp only [BitVec.toNat_ofNat, Format.keep]
  omega

theorem accepted_bmget {f : Fields} (h : ¬ f.low.toNat > 4) : f.Accepted 0x25 .di := by
  obtain ⟨sel, hsel, hlow⟩ := selOfImm_eq_some h
  exact ⟨.bmget f.d sel, by simp only [Fields.assemble, assemble, hsel], rfl, congrArg (pack 0x25 f.d 0 0) hlow⟩

/-- The opcodes whose command is its fields as they stand. -/
theorem accepted_plain {op : Nat} {fmt : Format} (f : Fields) (h : formatOf op = some fmt) (hpdivmod : op ≠ 0x1C)
    (hrscfg : op ≠ 0x20) (hrsbm : op ≠ 0x24) (hbmget : op ≠ 0x25) : f.Accepted op fmt := by
  unfold formatOf at h
  split at h
  any_goals contradiction
  all_goals
    cases h
    exact ⟨_, rfl, rfl, rfl⟩

/-- What the checks let pass is a command. -/
theorem accepted_of_not_refused {op : Nat} {fmt : Format} {f : Fields} (h : formatOf op = some fmt)
    (hf : ¬ f.Refused op) : f.Accepted op fmt := by
  rcases eq_or_ne op 0x1C with rfl | hpdivmod
  · cases h
    exact accepted_pdivmod fun hd => hf (.inr ⟨.inl rfl, hd⟩)
  rcases eq_or_ne op 0x20 with rfl | hrscfg
  · cases h
    exact accepted_rscfg f
  rcases eq_or_ne op 0x24 with rfl | hrsbm
  · cases h
    exact accepted_rsbm fun hd => hf (.inr ⟨.inr rfl, hd⟩)
  rcases eq_or_ne op 0x25 with rfl | hbmget
  · cases h
    exact accepted_bmget fun hlow => hf (.inl ⟨rfl, hlow⟩)
  exact accepted_plain f h hpdivmod hrscfg hrsbm hbmget

/-! ### The illegal words (30_encoding.md R80, R83) -/

/-- The word whose ones are bits `hi` down to `lo`. -/
def fieldMask (hi lo : Nat) : Word := BitVec.ofNat 32 (2 ^ (hi + 1 - lo) - 1) <<< lo

theorem getLsbD_fieldMask (hi lo i : Nat) :
    (fieldMask hi lo).getLsbD i = true ↔ i < 32 ∧ lo ≤ i ∧ i ≤ hi := by
  rw [fieldMask, BitVec.getLsbD_shiftLeft, BitVec.getLsbD_ofNat, Nat.testBit_two_pow_sub_one]
  simp only [Bool.and_eq_true, Bool.not_eq_true', decide_eq_true_eq, decide_eq_false_iff_not]
  omega

theorem and_eq_zero_iff_getLsbD (w m : Word) :
    w &&& m = 0 ↔ ∀ i, m.getLsbD i = true → w.getLsbD i = false := by
  constructor
  · intro h i hm
    have hbit := congrArg (·.getLsbD i) h
    simpa [hm] using hbit
  · intro h
    apply BitVec.eq_of_getLsbD_eq
    intro i _
    cases hm : m.getLsbD i with
    | false => simp [hm]
    | true => simp [h i hm]

theorem and_fieldMask_eq_zero_iff (w : Word) (hi lo : Nat) : w &&& fieldMask hi lo = 0 ↔ bits w hi lo = 0 := by
  rw [and_eq_zero_iff_getLsbD, bits_eq_zero_iff]
  simp only [getLsbD_fieldMask]
  constructor
  · intro h i hlo hhi
    by_cases hi32 : i < 32
    · exact h i ⟨hi32, hlo, hhi⟩
    · exact BitVec.getLsbD_of_ge w i (by omega)
  · exact fun h i ⟨_, hlo, hhi⟩ => h i hlo hhi

/-- The mask of several fields. -/
def fieldsMask : List (Nat × Nat) → Word
  | [] => 0
  | f :: fs => fieldMask f.1 f.2 ||| fieldsMask fs

theorem and_fieldsMask_eq_zero_iff (w : Word) (fs : List (Nat × Nat)) :
    w &&& fieldsMask fs = 0 ↔ (fs.all fun f => decide (bits w f.1 f.2 = 0)) = true := by
  induction fs with
  | nil => simp [fieldsMask]
  | cons f fs ih =>
    rw [fieldsMask, BitVec.and_or_distrib_left, List.all_cons, Bool.and_eq_true, decide_eq_true_eq, ← ih,
      ← and_fieldMask_eq_zero_iff]
    exact BitVec.or_eq_zero_iff

/-- R83's two columns agree: the mask of a format is that of its reserved fields. -/
theorem reservedMask_eq : ∀ op < 64, reservedMask op = (formatOf op).map fun fmt => fieldsMask fmt.reserved := by
  decide

theorem toNat_shift_op (w : Word) : (w >>> 26).toNat = bits w 31 26 := by
  have h := w.isLt
  rw [BitVec.toNat_ushiftRight, Nat.shiftRight_eq_div_pow, bits]
  omega

theorem toNat_and_low (w : Word) : (w &&& 0x3FFF).toNat = (immField w).toNat := by
  rw [BitVec.toNat_and, immField, bits, BitVec.toNat_ofNat, Nat.mod_mod, Nat.pow_zero, Nat.div_one]
  exact Nat.and_two_pow_sub_one_eq_mod w.toNat 14

theorem toNat_shift_and_reg (w : Word) (lo : Nat) : (w >>> lo &&& (0xF : Word)).toNat = (regField w lo).val := by
  rw [BitVec.toNat_and, BitVec.toNat_ushiftRight, Nat.shiftRight_eq_div_pow, regField, bits, Fin.val_ofNat,
    show lo + 3 + 1 - lo = 4 by omega]
  exact (Nat.and_two_pow_sub_one_eq_mod (w.toNat / 2 ^ lo) 4).trans (Nat.mod_mod _ _).symm

theorem shift_and_eq_iff (w : Word) : w >>> 22 &&& (0xF : Word) = w >>> 10 &&& (0xF : Word) ↔
    (Fields.ofWord w).d = (Fields.ofWord w).c := by
  rw [← BitVec.toNat_inj, toNat_shift_and_reg, toNat_shift_and_reg, Fin.val_inj, regField_c]
  rfl

theorem and_reservedMask_ne_zero_iff (w : Word) :
    (∃ m, reservedMask (bits w 31 26) = some m ∧ w &&& m ≠ 0) ↔
      ∃ fmt, formatOf (bits w 31 26) = some fmt ∧ fmt.reservedClear w ≠ true := by
  have hmask (fmt : Format) : w &&& fieldsMask fmt.reserved ≠ 0 ↔ fmt.reservedClear w ≠ true :=
    not_congr (and_fieldsMask_eq_zero_iff w fmt.reserved)
  rw [reservedMask_eq _ (bits_op_lt w)]
  cases formatOf (bits w 31 26) with
  | none => simp
  | some fmt => simp only [Option.map_some, Option.some.injEq, exists_eq_left', hmask]

/-- The conditions of R80 written with the decoder's own fields. -/
theorem illegalWord_iff (w : Word) : IllegalWord w ↔ formatOf (bits w 31 26) = none ∨
    (∃ fmt, formatOf (bits w 31 26) = some fmt ∧ fmt.reservedClear w ≠ true) ∨
    (Fields.ofWord w).Refused (bits w 31 26) := by
  rw [IllegalWord, toNat_shift_op, toNat_and_low, shift_and_eq_iff, and_reservedMask_ne_zero_iff,
    reservedMask_eq _ (bits_op_lt w), Option.map_eq_none_iff]
  rfl

/-! ### What a word decodes to -/

theorem keep_ofWord {w : Word} {fmt : Format} (h : fmt.reservedClear w = true) :
    fmt.keep (Fields.ofWord w) = Fields.ofWord w :=
  (reservedClear_word fmt _ (bits_op_lt w)).1 ((Fields.word_ofWord w).symm ▸ h)

theorem decode_of_illegal {w : Word} (h : IllegalWord w) : ∃ e, decode w = .error e := by
  rcases (illegalWord_iff w).1 h with hnone | ⟨fmt, hfmt, hnot⟩ | href
  · exact ⟨_, decode_of_formatOf_none hnone⟩
  · exact ⟨_, by rw [decode_of_formatOf_some hfmt, if_neg hnot]⟩
  · cases hfmt : formatOf (bits w 31 26) with
    | none => exact ⟨_, decode_of_formatOf_none hfmt⟩
    | some fmt =>
      rw [decode_of_formatOf_some hfmt]
      split
      · exact assemble_refused href
      · exact ⟨_, rfl⟩

theorem decode_of_not_illegal {w : Word} (h : ¬ IllegalWord w) :
    ∃ i, decode w = .ok i ∧ i.wellFormed = true ∧ encode i = w := by
  rw [illegalWord_iff, not_or, not_or] at h
  obtain ⟨hnone, hclear, href⟩ := h
  obtain ⟨fmt, hfmt⟩ := Option.ne_none_iff_exists'.1 hnone
  have hclear : fmt.reservedClear w = true := by_contra fun hnot => hclear ⟨fmt, hfmt, hnot⟩
  obtain ⟨i, hi, hwf, henc⟩ := accepted_of_not_refused hfmt href
  rw [keep_ofWord hclear, Fields.word_ofWord] at henc
  exact ⟨i, by rw [decode_of_formatOf_some hfmt, if_pos hclear, hi], hwf, henc⟩

/-- Settles O2: a word that decodes is not illegal, so it is the word of the command of its fields. -/
theorem encodesEveryDecodedWord : Obligations.EncodesEveryDecodedWord := by
  intro w i hdec
  by_cases h : IllegalWord w
  · obtain ⟨e, he⟩ := decode_of_illegal h
    rw [hdec] at he
    cases he
  · obtain ⟨j, hj, hwf, henc⟩ := decode_of_not_illegal h
    rw [hdec] at hj
    cases hj
    exact ⟨hwf, henc⟩

/-- Settles O3: an illegal word is refused, and any other is a command. -/
theorem refusesExactlyTheIllegalWords : Obligations.RefusesExactlyTheIllegalWords := by
  intro w
  have hok (h : ¬ IllegalWord w) : ∃ i, decode w = .ok i :=
    let ⟨i, hi, _⟩ := decode_of_not_illegal h
    ⟨i, hi⟩
  refine ⟨⟨fun ⟨e, he⟩ => by_contra fun h => ?_, decode_of_illegal⟩, hok⟩
  obtain ⟨i, hi⟩ := hok h
  rw [he] at hi
  cases hi

/-- Settles O4: an illegal word does not decode, and its turn is FAULT ENTRY. -/
theorem illegalWordsRaiseIllegalCommand : Obligations.IllegalWordsRaiseIllegalCommand := by
  intro s w rest h hact hturn
  obtain ⟨e, he⟩ := decode_of_illegal h
  rw [step_command hact hturn, runWord_error he]
  rfl

end Sys2Proof
end

section
/-! Proofs of the statements about the field unit and NOP (40_field.md R100 to R111): the arithmetic of GF(59) that the
results are stated in, the answer of each command that checks something, then each command's result. -/

namespace Sys2Proof.Machine

open scoped Fin.CommRing

/-! ### The word of a command -/

/-- A well-formed command has the encoding of its opcode's format. -/
theorem hasEncoding {i : Instr} {fmt : Format} (hop : Laws.EncodesOpcode.Statement i) (hwf : i.wellFormed = true)
    (hfmt : formatOf i.opcode = some fmt) : HasEncoding i i.opcode fmt :=
  ⟨hfmt, hop, decode_encode hwf⟩

/-- Settles O5: each sample is the word its command encodes to, and a command's word decodes to it. -/
theorem sampleWordsDecode : Obligations.SampleWordsDecode :=
  ⟨decode_encode (i := .fadd 3 1 2) rfl, decode_encode (i := .fpow 3 1 16383) rfl,
    decode_encode (i := .pdivmod 2 3 0 1) rfl, decode_encode (i := .rscfg 58 46) rfl,
    decode_encode (i := .rssyn 1 0) rfl, decode_encode (i := .rsbm 2 3 1) rfl,
    decode_encode (i := .bmget 5 .tau) rfl, decode_encode (i := .rsroot 2) rfl,
    decode_encode (i := .rsepoly 4) rfl⟩

/-! ### Immediates (30_encoding.md R85) -/

theorem elemOfImm_of_le {imm : BitVec 14} (h : imm.toNat ≤ 58) :
    elemOfImm imm = some ⟨imm.toNat, Nat.lt_succ_of_le h⟩ := dif_pos (Nat.lt_succ_of_le h)

theorem elemOfImm_of_gt {imm : BitVec 14} (h : 58 < imm.toNat) : elemOfImm imm = none :=
  dif_neg (by rw [u14]; omega)

/-- The form s14 is two's complement. -/
theorem s14_eq_toInt (imm : BitVec 14) : s14 imm = imm.toInt := by
  rw [s14, BitVec.toInt_eq_toNat_cond]
  split <;> split <;> omega

/-! ### GF(59) in integers, quotients and powers -/

/-- The difference is the mathematical remainder (40_field.md R104). -/
theorem val_sub_eq_emod (x y : Elem) : ((x - y).val : Int) = ((x.val : Int) - (y.val : Int)) % 59 := by
  rw [Fin.val_sub]
  omega

theorem val_zero_sub (x : Elem) : (0 - x : Elem).val = (59 - x.val) % 59 := by
  rw [Fin.val_sub]
  rfl

theorem zero_sub_elem_eq_zero {x : Elem} : 0 - x = 0 ↔ x = 0 := by rw [zero_sub, neg_eq_zero]

/-- The quotient times the divisor is the dividend (40_field.md R107). -/
theorem div_mul_cancel_elem (x : Elem) {y : Elem} (h : y ≠ 0) : x * invElem y * y = x := by
  rw [mul_right_comm, mul_assoc, mul_invElem h, mul_one]

theorem div_eq_zero_iff (x : Elem) {y : Elem} (h : y ≠ 0) : x * invElem y = 0 ↔ x = 0 :=
  elem_mul_eq_zero.trans (or_iff_left (invElem_ne_zero h))

/-- The inverse is the only one (40_field.md R108). -/
theorem eq_invElem {x u : Elem} (h : x ≠ 0) (hu : x * u = 1) : u = invElem x :=
  left_inv_eq_right_inv ((mul_comm u x).trans hu) (mul_invElem h)

/-- The power is repeated multiplication from 1 (40_field.md R109). -/
theorem powElem_eq_iterate (x : Elem) (e : Nat) : powElem x e = (fun r => r * x)^[e] 1 := by
  induction e with
  | zero => exact powElem_zero x
  | succ e ih => rw [powElem_succ, ih, Function.iterate_succ_apply']

/-- A power vanishes for the base 0 and an exponent above 0 alone: 0^0 = 1 (40_field.md R109). -/
theorem powElem_eq_zero_iff (x : Elem) (e : Nat) : powElem x e = 0 ↔ x = 0 ∧ 0 < e := by
  constructor
  · intro h
    refine ⟨by_contra fun hx => powElem_ne_zero hx e h, Nat.pos_of_ne_zero fun he => ?_⟩
    rw [he, powElem_zero] at h
    cases h
  · rintro ⟨rfl, he⟩
    obtain ⟨n, rfl⟩ := Nat.exists_eq_succ_of_ne_zero he.ne'
    rw [powElem_succ, mul_zero]

/-! ### What the commands with a check answer -/

section
variable (d a b : FReg) {imm : BitVec 14} {s : State}

theorem exec_fli_of_le (h : imm.toNat ≤ 58) :
    exec (.fli d imm) s = .next (s.putF d ⟨imm.toNat, Nat.lt_succ_of_le h⟩) := by
  show execFli d imm s = _
  rw [execFli, elemOfImm_of_le h]

theorem exec_fli_of_gt (h : 58 < imm.toNat) :
    exec (.fli d imm) s = .next (s.raise (encode (.fli d imm)) .invalidFieldValue) := by
  show execFli d imm s = _
  rw [execFli, elemOfImm_of_gt h]

theorem exec_fdiv_of_ne (h : s.f[b] ≠ 0) :
    exec (.fdiv d a b) s = .next (s.putF d (s.f[a] * invElem s.f[b])) := if_neg h

theorem exec_fdiv_of_zero (h : s.f[b] = 0) :
    exec (.fdiv d a b) s = .next (s.raise (encode (.fdiv d a b)) .noInverse) := if_pos h

theorem exec_finv_of_ne (h : s.f[a] ≠ 0) : exec (.finv d a) s = .next (s.putF d (invElem s.f[a])) := if_neg h

theorem exec_finv_of_zero (h : s.f[a] = 0) :
    exec (.finv d a) s = .next (s.raise (encode (.finv d a)) .noInverse) := if_pos h

theorem exec_fpow_of_nonneg (h : 0 ≤ imm.toInt) :
    exec (.fpow d a imm) s = .next (s.putF d (powElem s.f[a] imm.toInt.toNat)) := by
  rw [← s14_eq_toInt] at h ⊢
  exact if_pos h

theorem exec_fpow_of_neg_of_ne (h : imm.toInt < 0) (ha : s.f[a] ≠ 0) :
    exec (.fpow d a imm) s = .next (s.putF d (invElem (powElem s.f[a] (-imm.toInt).toNat))) := by
  rw [← s14_eq_toInt] at h ⊢
  exact (if_neg (not_le.2 h)).trans (if_neg ha)

theorem exec_fpow_of_neg_of_zero (h : imm.toInt < 0) (ha : s.f[a] = 0) :
    exec (.fpow d a imm) s = .next (s.raise (encode (.fpow d a imm)) .noInverse) := by
  rw [← s14_eq_toInt] at h
  exact (if_neg (not_le.2 h)).trans (if_pos ha)

end

/-! ### The results -/

/-- What Z says of the value written, said of the operands. -/
theorem putF_z_iff (s : State) (d : FReg) {v : Elem} {P : Prop} (h : v = 0 ↔ P) : (s.putF d v).z = true ↔ P :=
  decide_eq_true_iff.trans h

theorem putF_z_eq_false (s : State) (d : FReg) {v : Elem} (h : v ≠ 0) : (s.putF d v).z = false :=
  decide_eq_false h

/-- Settles O28: NOP answers the state it is given; FEQ writes Z alone. -/
theorem nopAndFeqResults : Obligations.NopAndFeqResults :=
  ⟨rfl, hasEncoding Laws.EncodesOpcode.nop rfl rfl, fun _ => rfl, fun a b _ =>
    ⟨hasEncoding (Laws.EncodesOpcode.feq a b) rfl rfl, _, rfl, rfl, decide_eq_true_iff⟩⟩

/-- Settles O29: both ranges of the immediate. -/
theorem fliLoadsOrFaults : Obligations.FliLoadsOrFaults := fun d imm s =>
  ⟨hasEncoding (Laws.EncodesOpcode.fli d imm) rfl rfl,
    fun h => ⟨_, _, exec_fli_of_le d h, rfl, writesF_putF s d _⟩,
    fun h => ⟨_, exec_fli_of_gt d h, recordsFault_raise s _ _⟩⟩

/-- Settles O30: the sum and the negation in integers; a negation is 0 exactly when its operand is. -/
theorem fmovFaddFnegResults : Obligations.FmovFaddFnegResults := fun d a b s =>
  ⟨hasEncoding (Laws.EncodesOpcode.fmov d a) rfl rfl, hasEncoding (Laws.EncodesOpcode.fadd d a b) rfl rfl,
    hasEncoding (Laws.EncodesOpcode.fneg d a) rfl rfl, ⟨_, rfl, writesF_putF s d _⟩,
    ⟨_, _, rfl, Fin.val_add _ _, writesF_putF s d _⟩,
    ⟨_, _, rfl, val_zero_sub _, writesF_putF s d _, putF_z_iff s d zero_sub_elem_eq_zero⟩⟩

/-- Settles O31: the difference is 0 exactly when the sources are equal. -/
theorem fsubResult : Obligations.FsubResult := fun d a b s =>
  ⟨hasEncoding (Laws.EncodesOpcode.fsub d a b) rfl rfl, _, _, rfl, val_sub_eq_emod _ _, writesF_putF s d _,
    putF_z_iff s d sub_eq_zero⟩

/-- Settles O32: the product is 0 exactly when a source is. -/
theorem fmulResult : Obligations.FmulResult := fun d a b s =>
  ⟨hasEncoding (Laws.EncodesOpcode.fmul d a b) rfl rfl, _, _, rfl, Fin.val_mul _ _, writesF_putF s d _,
    putF_z_iff s d elem_mul_eq_zero⟩

/-- Settles O33: the quotient undoes the product, the inverse is the only one, and 0 has none. -/
theorem fdivAndFinvResults : Obligations.FdivAndFinvResults := fun d a b s =>
  ⟨hasEncoding (Laws.EncodesOpcode.fdiv d a b) rfl rfl, hasEncoding (Laws.EncodesOpcode.finv d a) rfl rfl,
    fun hb => ⟨_, _, exec_fdiv_of_ne d a b hb, div_mul_cancel_elem _ hb, writesF_putF s d _,
      putF_z_iff s d (div_eq_zero_iff _ hb)⟩,
    fun hb => ⟨_, exec_fdiv_of_zero d a b hb, recordsFault_raise s _ _⟩,
    fun ha => ⟨_, _, exec_finv_of_ne d a ha, mul_invElem ha, fun _ => eq_invElem ha, writesF_putF s d _,
      putF_z_eq_false s d (invElem_ne_zero ha)⟩,
    fun ha => ⟨_, exec_finv_of_zero d a ha, recordsFault_raise s _ _⟩⟩

/-- Settles O34: the power by repeated multiplication, its inverse below 0, and no inverse of a power of 0. -/
theorem fpowResult : Obligations.FpowResult := by
  intro d a imm s
  refine ⟨hasEncoding (Laws.EncodesOpcode.fpow d a imm) rfl rfl, fun he => ?_, fun he ha => ?_, fun he ha => ?_⟩
  · rw [← powElem_eq_iterate]
    refine ⟨_, exec_fpow_of_nonneg d a he, writesF_putF s d _, putF_z_iff s d ?_⟩
    rw [powElem_eq_zero_iff, Int.lt_toNat, Nat.cast_zero]
  · have hpow : powElem s.f[a] (-imm.toInt).toNat ≠ 0 := powElem_ne_zero ha _
    rw [← powElem_eq_iterate]
    exact ⟨_, _, exec_fpow_of_neg_of_ne d a he ha, mul_invElem hpow, writesF_putF s d _,
      putF_z_eq_false s d (invElem_ne_zero hpow)⟩
  · exact ⟨_, exec_fpow_of_neg_of_zero d a he ha, recordsFault_raise s _ _⟩

/-- Settles O35: FPOWF answers FAULT ENTRY whatever the state. -/
theorem fpowfAlwaysFaults : Obligations.FpowfAlwaysFaults := fun d a b s =>
  ⟨hasEncoding (Laws.EncodesOpcode.fpowf d a b) rfl rfl, _, rfl, recordsFault_raise s _ _⟩

end Sys2Proof.Machine
end

section
/-! Proofs of the statements about the polynomial engine (41_poly.md R130 to R146): when a result is the zero polynomial,
the answer of each command that checks something, then each command's result. -/

namespace Sys2Proof.Machine

open scoped Fin.CommRing

/-! ### Zero polynomials and degrees -/

theorem isZero_eq_false_iff (q : Poly) : q.isZero = false ↔ ∃ j, q.coeff j ≠ 0 := by
  rw [← Bool.not_eq_true, isZero_iff, not_forall]

/-- The capacity test of PPUSH comes to its top cell alone (41_poly.md R133). -/
theorem full_iff (q : Poly) : (!q.isZero && decide (q.deg = 127)) = true ↔ q.coeff 127 ≠ 0 := by
  rw [Bool.and_eq_true, Bool.not_eq_true', decide_eq_true_iff]
  constructor
  · rintro ⟨hz, hd⟩
    exact hd ▸ coeff_deg_ne_zero q hz
  · intro h
    have hge : ¬ q.deg < 127 := fun hlt => h (coeff_above_deg q hlt)
    have hlt := deg_lt q
    exact ⟨(isZero_eq_false_iff q).2 ⟨127, h⟩, by omega⟩

/-- With no coefficient from power `n` up, a polynomial is zero or of degree below `n`. -/
theorem zero_or_deg_lt {q : Poly} {n : Nat} (h : ∀ j, n ≤ j → q.coeff j = 0) :
    (∀ j, q.coeff j = 0) ∨ q.deg < n := by
  rcases deg_spec q with ⟨hz, _⟩ | ⟨_, htop, _⟩
  · exact .inl hz
  · exact .inr (not_le.1 fun hle => htop (h _ hle))

/-- A difference is zero exactly when the sources agree (41_poly.md R138). -/
theorem isZero_sub (a b : Poly) : (a.sub b).isZero = true ↔ ∀ j, j < 128 → a.coeff j = b.coeff j := by
  simp only [isZero_iff_lt, coeff_sub, sub_eq_zero]

/-- A multiple is zero exactly when a factor is (41_poly.md R140). -/
theorem isZero_scale (q : Poly) (v : Elem) : (q.scale v).isZero = true ↔ (∀ j, q.coeff j = 0) ∨ v = 0 := by
  simp only [isZero_iff, coeff_scale, elem_mul_eq_zero, forall_or_right]

/-- A shift that fits keeps the leading coefficient (41_poly.md R141). -/
theorem isZero_shiftUp {q : Poly} {n : Nat} (hq : q.isZero = false) (hn : q.deg + n ≤ 127) :
    (q.shiftUp n).isZero = false := by
  refine (isZero_eq_false_iff _).2 ⟨q.deg + n, ?_⟩
  rw [coeff_shiftUp, if_pos (by omega), Nat.add_sub_cancel]
  exact coeff_deg_ne_zero q hq

/-- A shift down loses everything exactly when it passes the degree (41_poly.md R142). -/
theorem isZero_shiftDown (q : Poly) (n : Nat) :
    (q.shiftDown n).isZero = true ↔ q.deg < n ∨ ∀ j, q.coeff j = 0 := by
  simp only [isZero_iff, coeff_shiftDown]
  constructor
  · intro h
    refine (zero_or_deg_lt fun j hj => ?_).symm
    rw [← Nat.sub_add_cancel hj]
    exact h _
  · rintro (h | h) j
    · exact coeff_above_deg q (by omega)
    · exact h _

/-! ### What the commands with a check answer -/

section
variable {s : State} {d a b c : PReg} {imm : BitVec 14}

theorem pushOnto_of_fits (w : Word) (v : Elem) (h : s.p[d].coeff 127 = 0) :
    s.pushOnto w d v = s.putP d (s.p[d].push v) := if_neg fun hfull => (full_iff _).1 hfull h

theorem pushOnto_of_full (w : Word) (v : Elem) (h : s.p[d].coeff 127 ≠ 0) :
    s.pushOnto w d v = s.raise w .capacityExceeded := if_pos ((full_iff _).2 h)

theorem exec_ppushi_of_le (h : imm.toNat ≤ 58) : exec (.ppushi d imm) s =
    .next (s.pushOnto (encode (.ppushi d imm)) d ⟨imm.toNat, Nat.lt_succ_of_le h⟩) := by
  show execPpushi d imm s = _
  rw [execPpushi, elemOfImm_of_le h]

theorem exec_ppushi_of_gt (h : 58 < imm.toNat) :
    exec (.ppushi d imm) s = .next (s.raise (encode (.ppushi d imm)) .invalidFieldValue) := by
  show execPpushi d imm s = _
  rw [execPpushi, elemOfImm_of_gt h]

theorem exec_psetc_of_le (r : FReg) (h : imm.toNat ≤ 127) :
    exec (.psetc d r imm) s = .next (s.putP d (s.p[d].setCoeff imm.toNat s.f[r])) := if_neg (not_lt.2 h)

theorem exec_psetc_of_gt (r : FReg) (h : 127 < imm.toNat) :
    exec (.psetc d r imm) s = .next (s.raise (encode (.psetc d r imm)) .capacityExceeded) := if_pos h

theorem exec_pmul_of_fits (h : s.p[a].deg + s.p[b].deg ≤ 127) :
    exec (.pmul d a b) s = .next (s.putP d (s.p[a].mul s.p[b])) := if_neg (not_lt.2 h)

theorem exec_pmul_of_full (h : 127 < s.p[a].deg + s.p[b].deg) :
    exec (.pmul d a b) s = .next (s.raise (encode (.pmul d a b)) .capacityExceeded) := if_pos h

theorem exec_pshl_of_zero (h : s.p[a].isZero = true) :
    exec (.pshl d a imm) s = .next (s.putP d Poly.zero) := if_pos h

theorem exec_pshl_of_fits (hz : s.p[a].isZero = false) (h : s.p[a].deg + imm.toNat ≤ 127) :
    exec (.pshl d a imm) s = .next (s.putP d (s.p[a].shiftUp imm.toNat)) :=
  (if_neg (Bool.eq_false_iff.1 hz)).trans (if_neg (not_lt.2 h))

theorem exec_pshl_of_full (hz : s.p[a].isZero = false) (h : 127 < s.p[a].deg + imm.toNat) :
    exec (.pshl d a imm) s = .next (s.raise (encode (.pshl d a imm)) .capacityExceeded) :=
  (if_neg (Bool.eq_false_iff.1 hz)).trans (if_pos h)

theorem exec_pdivmod_of_eq (h : d = c) :
    exec (.pdivmod d c a b) s = .next (s.raise (encode (.pdivmod d c a b)) .illegalCommand) := if_pos h

theorem exec_pdivmod_of_zero (h : d ≠ c) (hb : s.p[b].isZero = true) :
    exec (.pdivmod d c a b) s = .next (s.raise (encode (.pdivmod d c a b)) .divisionByZero) :=
  (if_neg h).trans (if_pos hb)

theorem exec_pdivmod_of_ne_zero (h : d ≠ c) (hb : s.p[b].isZero = false) :
    exec (.pdivmod d c a b) s = .next
      { s with p := (s.p.set d (s.p[a].divMod s.p[b]).1).set c (s.p[a].divMod s.p[b]).2
               z := zOfPoly (s.p[a].divMod s.p[b]).2 } :=
  (if_neg h).trans (if_neg (Bool.eq_false_iff.1 hb))

end

/-! ### The results -/

/-- A result that is canonical by construction is written with its own coefficients. -/
theorem writesP_putP_coeff (s : State) (d : PReg) {q : Poly} (hq : q.Canonical) :
    WritesP s (s.putP d q) d q.coeff := writesP_putP s d hq fun _ _ => rfl

theorem writesP_putP_zero (s : State) (d : PReg) : WritesP s (s.putP d Poly.zero) d fun _ => 0 :=
  writesP_putP s d canonical_zero fun j _ => coeff_zero j

/-- The append that PPUSH and PPUSHI share, on both sides of the capacity (41_poly.md R133). -/
theorem writesP_pushOnto {s : State} (w : Word) {d : PReg} (v : Elem) (h : s.p[d].coeff 127 = 0) :
    WritesP s (s.pushOnto w d v) d fun j => if j = 0 then v else s.p[d].coeff (j - 1) := by
  rw [pushOnto_of_fits w v h]
  exact writesP_putP_canon s d _

theorem recordsFault_pushOnto {s : State} (w : Word) {d : PReg} (v : Elem) (h : s.p[d].coeff 127 ≠ 0) :
    RecordsFault s (s.pushOnto w d v) w 6 := by
  rw [pushOnto_of_full w v h]
  exact recordsFault_raise s w _

/-- Settles O36: both write a polynomial that stands whole before the command. -/
theorem pclrAndPmovResults : Obligations.PclrAndPmovResults := by
  intro d a s
  obtain ⟨_, hd, _⟩ := copiesP_putP s d Poly.zero
  exact ⟨hasEncoding (Laws.EncodesOpcode.pclr d) rfl rfl, hasEncoding (Laws.EncodesOpcode.pmov d a) rfl rfl,
    ⟨_, rfl, writesP_putP_zero s d, congrArg Poly.degReg hd⟩, ⟨_, rfl, copiesP_putP s d s.p[a]⟩⟩

/-- Settles O37: the top cell decides between the append and CapacityExceeded. -/
theorem ppushAndPpushiResults : Obligations.PpushAndPpushiResults := fun d a imm s =>
  ⟨hasEncoding (Laws.EncodesOpcode.ppush d a) rfl rfl, hasEncoding (Laws.EncodesOpcode.ppushi d imm) rfl rfl,
    fun h => ⟨_, rfl, writesP_pushOnto _ _ h⟩, fun h => ⟨_, rfl, recordsFault_pushOnto _ _ h⟩,
    fun himm h => ⟨_, _, exec_ppushi_of_le himm, rfl, writesP_pushOnto _ _ h⟩,
    fun himm => ⟨_, exec_ppushi_of_gt himm, recordsFault_raise s _ _⟩,
    fun himm h => ⟨_, exec_ppushi_of_le himm, recordsFault_pushOnto _ _ h⟩⟩

/-- Settles O38: PSETC on both sides of power 127; PGETC reads the cell, or 0 where there is none. -/
theorem psetcAndPgetcResults : Obligations.PsetcAndPgetcResults :=
  ⟨fun d a imm s => ⟨hasEncoding (Laws.EncodesOpcode.psetc d a imm) rfl rfl,
      fun h => ⟨_, exec_psetc_of_le a h, writesP_putP_canon s d _⟩,
      fun h => ⟨_, exec_psetc_of_gt a h, recordsFault_raise s _ _⟩⟩,
    fun d a imm s => ⟨hasEncoding (Laws.EncodesOpcode.pgetc d a imm) rfl rfl, _, _, rfl, writesF_putF s d _,
      fun h => (coeff_eq _ _).trans (dif_pos h), coeff_of_ge _⟩⟩

/-- Settles O39: the sum and the difference of each coefficient in integers. -/
theorem paddAndPsubResults : Obligations.PaddAndPsubResults := by
  intro d a b s
  refine ⟨hasEncoding (Laws.EncodesOpcode.padd d a b) rfl rfl, hasEncoding (Laws.EncodesOpcode.psub d a b) rfl rfl,
    ⟨_, _, rfl, writesP_putP_coeff s d (canonical_canon _), fun j => ?_⟩,
    ⟨_, _, rfl, writesP_putP_coeff s d (canonical_canon _), fun j => ?_, isZero_sub _ _⟩⟩
  · rw [readP_eq, readP_eq, coeff_add, Fin.val_add]
  · rw [readP_eq, readP_eq, coeff_sub, val_sub_eq_emod]

/-- Settles O40: degrees that sum to at most 127 leave no coefficient of the convolution outside the register. -/
theorem pmulResult : Obligations.PmulResult := by
  intro d a b s
  refine ⟨hasEncoding (Laws.EncodesOpcode.pmul d a b) rfl rfl, fun h => ?_,
    fun h => ⟨_, exec_pmul_of_full h, recordsFault_raise s _ _⟩⟩
  refine ⟨_, _, exec_pmul_of_fits h, writesP_putP_coeff s d (canonical_canon _), coeff_mul h,
    fun j hj => coeff_of_ge _ hj, ?_⟩
  rw [← isZero_iff, ← isZero_iff]
  exact isZero_mul h

/-- Settles O41: each coefficient's product in integers; GF(59) has no zero divisors. -/
theorem pscaleResult : Obligations.PscaleResult := by
  intro d a b s
  refine ⟨hasEncoding (Laws.EncodesOpcode.pscale d a b) rfl rfl, _, _, rfl,
    writesP_putP_coeff s d (canonical_canon _), fun j => ?_, isZero_scale _ _⟩
  rw [readP_eq, readF_eq, coeff_scale, Fin.val_mul]

/-- Settles O42: PSHL of zero, within and past the capacity; PSHR drops the powers below the count. -/
theorem pshlAndPshrResults : Obligations.PshlAndPshrResults := by
  intro d a imm s
  refine ⟨hasEncoding (Laws.EncodesOpcode.pshl d a imm) rfl rfl, hasEncoding (Laws.EncodesOpcode.pshr d a imm) rfl rfl,
    fun hz => ⟨_, exec_pshl_of_zero ((isZero_iff _).2 hz), writesP_putP_zero s d⟩, fun hne h => ?_,
    fun hne h => ⟨_, exec_pshl_of_full ((isZero_eq_false_iff _).2 hne) h, recordsFault_raise s _ _⟩,
    ⟨_, rfl, writesP_putP_canon s d _, isZero_shiftDown _ _⟩⟩
  have hz := (isZero_eq_false_iff _).2 hne
  exact ⟨_, exec_pshl_of_fits hz h, isZero_shiftUp hz h, writesP_putP_canon s d _⟩

/-- The two registers PDIVMOD delivers (41_poly.md R143). -/
theorem getElem_set_set {v : Vector Poly 16} {d c : PReg} (q r : Poly) (h : d ≠ c) :
    ((v.set d q).set c r)[d] = q ∧ ((v.set d q).set c r)[c] = r := by
  simp [Fin.val_ne_of_ne h.symm]

/-- Settles O43: the elimination loop keeps `q·b + r` and clears the remainder from the degree of `b` up. -/
theorem pdivmodDivides : Obligations.PdivmodDivides := by
  intro d c a b s
  refine ⟨fun h => ⟨_, exec_pdivmod_of_eq h, recordsFault_raise s _ _⟩,
    fun h => hasEncoding (Laws.EncodesOpcode.pdivmod d c a b) (decide_eq_true h) rfl, fun h hb => ?_,
    fun h hb => ⟨_, exec_pdivmod_of_zero h ((isZero_iff _).2 hb), recordsFault_raise s _ _⟩⟩
  have hb := (isZero_eq_false_iff _).2 hb
  obtain ⟨hlaw, hrem⟩ := divMod_law s.p[a] hb
  obtain ⟨hqcanon, hrcanon⟩ := divMod_canonical s.p[a] s.p[b]
  obtain ⟨hd, hc⟩ := getElem_set_set (v := s.p) (s.p[a].divMod s.p[b]).1 (s.p[a].divMod s.p[b]).2 h
  refine ⟨_, exec_pdivmod_of_ne_zero h hb, rfl,
    fun r hrd hrc => getElem_set_set_of_ne _ _ (by simp [hrd, hrc]), ?_⟩
  simp only [hd, hc]
  exact ⟨hqcanon, hrcanon, hlaw, zero_or_deg_lt hrem, isZero_iff _⟩

/-- Settles O44: Horner's value is the sum of the terms, and a power is repeated multiplication. -/
theorem pevalResult : Obligations.PevalResult := by
  intro d a b s
  refine ⟨hasEncoding (Laws.EncodesOpcode.peval d a b) rfl rfl, _, _, rfl, ?_, writesF_putF s d _⟩
  simp only [← powElem_eq_iterate]
  exact eval_eq_sum s.p[a] s.f[b] (deg_lt _)

/-- Settles O45: Z alone is written, from all the cells. -/
theorem peqResult : Obligations.PeqResult := fun a b _ =>
  ⟨hasEncoding (Laws.EncodesOpcode.peq a b) rfl rfl, _, rfl, rfl, same_iff _ _⟩

end Sys2Proof.Machine
end

section
/-! Proofs of the statements about the configuration and the syndromes (42_rs_config_syndrome.md R170 to R172): the
answer of each command, a polynomial register read as one of Mathlib's polynomials over GF(59), the generator
polynomial and its roots, then each result. -/

namespace Sys2Proof.Machine

open Polynomial
open scoped Fin.CommRing

/-! ### What the commands answer -/

section
variable {n k : BitVec 7} {s : State} (d a : PReg)

theorem legalConfig_iff : legalConfig n k = true ↔ 1 ≤ k.toNat ∧ k.toNat < n.toNat ∧ n.toNat ≤ 58 :=
  decide_eq_true_iff

theorem exec_rscfg_of_legal (h : legalConfig n k = true) : exec (.rscfg n k) s = .next { s with cfg :=
    { n := BitVec.ofNat 6 n.toNat, k := BitVec.ofNat 6 k.toNat
      nk := BitVec.ofNat 6 (n.toNat - k.toNat), cfgv := true } } := if_pos h

theorem exec_rscfg_of_illegal (h : ¬ legalConfig n k = true) :
    exec (.rscfg n k) s = .next (s.raise (encode (.rscfg n k)) .invalidParameters) := if_neg h

theorem exec_rssyn_of_set (h : s.cfg.cfgv = true) :
    exec (.rssyn d a) s = .next (s.putP d (syndromes s.p[a] s.cfg.nk.toNat)) := if_pos h

theorem exec_rssyn_of_unset (h : s.cfg.cfgv = false) :
    exec (.rssyn d a) s = .next (s.raise (encode (.rssyn d a)) .invalidParameters) :=
  if_neg (Bool.eq_false_iff.1 h)

end

/-! ### Polynomial registers as polynomials over GF(59) -/

theorem powElem_eq_pow (x : Elem) (e : Nat) : powElem x e = x ^ e := by
  induction e with
  | zero => rw [powElem_zero, pow_zero]
  | succ e ih => rw [powElem_succ, ih, pow_succ]

/-- The polynomial whose coefficients the 128 cells of a register hold. -/
noncomputable def Poly.toPolynomial (q : Poly) : Elem[X] := ofFn 128 q.c.get

@[simp] theorem coeff_toPolynomial (q : Poly) (j : Nat) : q.toPolynomial.coeff j = q.coeff j := by
  rw [Poly.toPolynomial, coeff_eq]
  split
  · next hj => exact ofFn_coeff_eq_val_of_lt _ hj
  · next hj => exact ofFn_coeff_eq_zero_of_ge _ (not_lt.1 hj)

theorem toPolynomial_eq_zero_iff (q : Poly) : q.toPolynomial = 0 ↔ ∀ j, q.coeff j = 0 := by
  simp [Polynomial.ext_iff]

/-- Horner's value is the value of the polynomial (00_scope.md R12). -/
theorem eval_toPolynomial (q : Poly) (x : Elem) : q.toPolynomial.eval x = q.eval x := by
  have hdeg : q.toPolynomial.natDegree < 128 := ofFn_natDegree_lt (by decide) _
  rw [eval_eq_sum_range' hdeg, eval_eq_sum q x (deg_lt q), sumTo_eq_sum]
  simp [powElem_eq_pow]

/-- The division law, as an equation of polynomials (41_poly.md R143). -/
theorem toPolynomial_divMod (a : Poly) {b : Poly} (hb : b.isZero = false) :
    (a.divMod b).2.toPolynomial + b.toPolynomial * (a.divMod b).1.toPolynomial = a.toPolynomial := by
  refine Polynomial.ext fun j => ?_
  rw [mul_comm, Polynomial.coeff_add, Polynomial.coeff_mul, coeff_toPolynomial, coeff_toPolynomial,
    Finset.Nat.sum_antidiagonal_eq_sum_range_succ_mk, ← (divMod_law a hb).1 j, convCoeff_eq_sum, add_comm]
  simp

/-! ### The generator polynomial (42_rs_config_syndrome.md R173) -/

/-- `(x - 2^1)·…·(x - 2^n)`. -/
noncomputable def generator (n : Nat) : Elem[X] := ∏ i ∈ Finset.range n, (X - C (pow2 (i + 1)))

theorem generator_monic (n : Nat) : (generator n).Monic := monic_prod_of_monic _ _ fun _ _ => monic_X_sub_C _

theorem generator_natDegree (n : Nat) : (generator n).natDegree = n := by
  rw [generator, natDegree_finsetProd_X_sub_C_eq_card, Finset.card_range]

/-- The coefficients built one factor after the other are those of the product. -/
theorem coeff_generator (n j : Nat) : (generator n).coeff j = genCoeff n j := by
  induction n generalizing j with
  | zero => rw [generator, Finset.prod_range_zero, Polynomial.coeff_one]; rfl
  | succ n ih =>
    rw [generator, Finset.prod_range_succ, ← generator, genCoeff]
    cases j with
    | zero =>
      rw [mul_coeff_zero, ih, Polynomial.coeff_sub, coeff_X_zero, coeff_C_zero, if_pos rfl]
      ring
    | succ j => rw [coeff_mul_X_sub_C, ih, ih, if_neg j.succ_ne_zero, Nat.add_sub_cancel, mul_comm]

/-- 2 has order 58, so the roots 2^1..2^n are distinct (00_scope.md R8). -/
theorem pow2_succ_inj {i j : Nat} (hi : i < 57) (hj : j < 57) (h : pow2 (i + 1) = pow2 (j + 1)) : i = j := by
  have := pow2_injective_below_58 ⟨i + 1, by omega⟩ ⟨j + 1, by omega⟩ h
  simpa using this

/-- Two factors with different roots are coprime: every nonzero element has an inverse. -/
theorem isCoprime_X_sub_C {x y : Elem} (h : x ≠ y) : IsCoprime (X - C x) (X - C y) :=
  isCoprime_X_sub_C_of_isUnit_sub (IsUnit.of_mul_eq_one _ (mul_invElem (sub_ne_zero.2 h)))

/-- The generator polynomial divides exactly the polynomials that vanish at its roots. -/
theorem generator_dvd_iff {n : Nat} (hn : n ≤ 57) (p : Elem[X]) :
    generator n ∣ p ↔ ∀ i, i < n → p.eval (pow2 (i + 1)) = 0 := by
  constructor
  · intro h i hi
    have hfactor : X - C (pow2 (i + 1)) ∣ generator n :=
      Finset.dvd_prod_of_mem (fun i => X - C (pow2 (i + 1))) (Finset.mem_range.2 hi)
    exact dvd_iff_isRoot.1 (hfactor.trans h)
  · intro h
    refine Finset.prod_dvd_of_coprime (fun i hi j hj hij => ?_) fun i hi =>
      dvd_iff_isRoot.2 (h i (Finset.mem_range.1 hi))
    rw [Finset.mem_coe, Finset.mem_range] at hi hj
    exact isCoprime_X_sub_C fun heq => hij (pow2_succ_inj (by omega) (by omega) heq)

section
variable {n : Nat} {g : Poly} (hg : ∀ j, g.coeff j = genCoeff n j)
include hg

theorem toPolynomial_of_genCoeff : g.toPolynomial = generator n := by
  refine Polynomial.ext fun j => ?_
  rw [coeff_toPolynomial, hg, coeff_generator]

/-- A register that holds the generator polynomial is a divisor PDIVMOD accepts. -/
theorem isZero_eq_false_of_genCoeff : g.isZero = false := by
  have hlead := (generator_monic n).coeff_natDegree
  rw [generator_natDegree, coeff_generator, ← hg] at hlead
  exact (isZero_eq_false_iff g).2 ⟨n, hlead ▸ one_ne_zero⟩

theorem deg_le_of_genCoeff : g.deg ≤ n := by
  refine deg_le_of_coeff fun j hj => ?_
  rw [hg, ← coeff_generator]
  exact coeff_eq_zero_of_natDegree_lt (by rwa [generator_natDegree])

/-- The remainder PDIVMOD leaves is the remainder by the generator polynomial. -/
theorem toPolynomial_remainder (a : Poly) : (a.divMod g).2.toPolynomial = a.toPolynomial %ₘ generator n := by
  have hb := isZero_eq_false_of_genCoeff hg
  refine (div_modByMonic_unique (a.divMod g).1.toPolynomial _ (generator_monic n) ⟨?_, ?_⟩).2.symm
  · rw [← toPolynomial_of_genCoeff hg]
    exact toPolynomial_divMod a hb
  · rw [degree_eq_natDegree (generator_monic n).ne_zero, generator_natDegree, degree_lt_iff_coeff_zero]
    intro j hj
    rw [coeff_toPolynomial]
    exact (divMod_law a hb).2 j ((deg_le_of_genCoeff hg).trans hj)

/-- The remainder is zero exactly when the word vanishes at 2^1..2^n. -/
theorem remainder_isZero_iff (hn : n ≤ 57) (a : Poly) :
    (a.divMod g).2.isZero = true ↔ ∀ i, i < n → a.eval (pow2 (i + 1)) = 0 := by
  rw [isZero_iff, ← toPolynomial_eq_zero_iff, toPolynomial_remainder hg,
    modByMonic_eq_zero_iff_dvd (generator_monic n), generator_dvd_iff hn]
  simp only [eval_toPolynomial]

end

/-- The syndromes are all zero exactly when the word vanishes at 2^1..2^n. -/
theorem syndromes_isZero_iff (r : Poly) {n : Nat} (hn : n ≤ 57) :
    (syndromes r n).isZero = true ↔ ∀ i, i < n → r.eval (pow2 (i + 1)) = 0 := by
  rw [isZero_iff_lt]
  constructor
  · intro h i hi
    have hl := h (i + 1) (by omega)
    rwa [syndromes, coeff_canon_lt _ (by omega), if_pos (by omega)] at hl
  · intro h l hl
    rw [syndromes, coeff_canon_lt _ hl]
    split
    · next hb =>
      have := h (l - 1) (by omega)
      rwa [Nat.sub_add_cancel hb.1] at this
    · rfl

/-- A legal configuration has at most 57 check symbols (10_state.md R26). -/
theorem legal_nk_le {c : RsConfig} (h : c.Legal) (hset : c.cfgv = true) : c.nk.toNat ≤ 57 := by
  obtain ⟨hk, _, hn, hnk⟩ := h hset
  omega

/-! ### The results -/

/-- Settles O46: the three fields hold a legal pair whole, and the other pairs are exactly the illegal ones. -/
theorem rscfgSetsOrFaults : Obligations.RscfgSetsOrFaults := by
  intro n k s
  refine ⟨hasEncoding (Laws.EncodesOpcode.rscfg n k) rfl rfl, fun hk hkn hn => ?_, fun h => ?_⟩
  · refine ⟨_, exec_rscfg_of_legal (legalConfig_iff.2 ⟨hk, hkn, hn⟩), rfl, ?_, ?_, ?_, rfl⟩ <;>
      exact (BitVec.toNat_ofNat _ _).trans (Nat.mod_eq_of_lt (by omega))
  · refine ⟨_, exec_rscfg_of_illegal fun hl => ?_, recordsFault_raise s _ _⟩
    obtain ⟨hk, hkn, hn⟩ := legalConfig_iff.1 hl
    omega

/-- Settles O47: each syndrome is a Horner value, which is the sum of the terms. -/
theorem rssynResult : Obligations.RssynResult := by
  intro d a s
  refine ⟨hasEncoding (Laws.EncodesOpcode.rssyn d a) rfl rfl, fun h => ⟨_, exec_rssyn_of_set d a h, ?_⟩,
    fun h => ⟨_, exec_rssyn_of_unset d a h, recordsFault_raise s _ _⟩⟩
  simp only [← powElem_eq_iterate, ← eval_eq_sum _ _ (deg_lt _)]
  exact writesP_putP_canon s d _

/-- Settles O48: both results are zero exactly when the word vanishes at the roots 2^1..2^NK of the generator
polynomial. -/
theorem syndromesVanishExactlyOnMultiplesOfTheGenerator :
    Obligations.SyndromesVanishExactlyOnMultiplesOfTheGenerator := by
  intro d q r a g s hset hlegal hqr hg
  have hn := legal_nk_le hlegal hset
  have hiff : (syndromes s.p[a] s.cfg.nk.toNat).isZero = true ↔ (s.p[a].divMod s.p[g]).2.isZero = true :=
    (syndromes_isZero_iff _ hn).trans (remainder_isZero_iff hg hn _).symm
  obtain ⟨_, hr⟩ := getElem_set_set (v := s.p) (s.p[a].divMod s.p[g]).1 (s.p[a].divMod s.p[g]).2 hqr
  obtain ⟨_, hd, _⟩ := copiesP_putP s d (syndromes s.p[a] s.cfg.nk.toNat)
  refine ⟨_, _, exec_rssyn_of_set d a hset, exec_pdivmod_of_ne_zero hqr (isZero_eq_false_of_genCoeff hg), ?_, hiff⟩
  rw [hd, hr, ← isZero_iff, ← isZero_iff]
  exact hiff

end Sys2Proof.Machine
end

section
/-! Proofs of the statements about the Berlekamp-Massey solver (43_berlekamp_massey.md R190 to R195): the answer of each
command, the rule-selection table, the key equation as an invariant of the iteration, then each result. -/

namespace Sys2Proof.Machine

open scoped Fin.CommRing

/-! ### What the commands answer -/

section
variable {s : State} {d c : PReg} (a : PReg)

theorem exec_bmstep_of_le (h : s.bm.l.toNat ≤ 126) : exec .bmstep s = .next { s with bm := bmStep s.bm } :=
  if_neg (by omega)

theorem exec_bmstep_of_full (h : s.bm.l.toNat = 127) :
    exec .bmstep s = .next (s.raise (encode .bmstep) .capacityExceeded) := if_pos h

theorem exec_rsbm_of_eq (h : d = c) :
    exec (.rsbm d c a) s = .next (s.raise (encode (.rsbm d c a)) .illegalCommand) := if_pos h

theorem exec_rsbm_of_set (h : d ≠ c) (hset : s.cfg.cfgv = true) : exec (.rsbm d c a) s = .next
    { s with bm := bmIterate s.cfg.nk.toNat (bmInit s.p[a])
             p := (s.p.set d (bmIterate s.cfg.nk.toNat (bmInit s.p[a])).sig).set c
               (bmIterate s.cfg.nk.toNat (bmInit s.p[a])).om } := (if_neg h).trans (if_pos hset)

theorem exec_rsbm_of_unset (h : d ≠ c) (hset : s.cfg.cfgv = false) :
    exec (.rsbm d c a) s = .next (s.raise (encode (.rsbm d c a)) .invalidParameters) :=
  (if_neg h).trans (if_neg (Bool.eq_false_iff.1 hset))

end

theorem runAll_cons {i : Instr} {s t : State} (is : List Instr) (h : exec i s = .next t) :
    runAll (i :: is) s = runAll is t := by
  rw [runAll, h]

/-- BMSTEPs that stay below the counter's limit are iterations of the working state. -/
theorem runAll_bmsteps (n : Nat) {s : State} (h : s.bm.l.toNat + n ≤ 127) :
    runAll (List.replicate n .bmstep) s = .next { s with bm := bmIterate n s.bm } := by
  induction n generalizing s with
  | zero => rfl
  | succ n ih =>
    have hl : s.bm.l.toNat ≤ 126 := by omega
    have hl' := bmStep_l_toNat hl
    have hrest : (bmStep s.bm).l.toNat + n ≤ 127 := by omega
    exact (runAll_cons _ (exec_bmstep_of_le hl)).trans (ih hrest)

theorem runAll_bminit_bmsteps (a : PReg) (s : State) {n : Nat} (h : n ≤ 127) :
    runAll (.bminit a :: List.replicate n .bmstep) s = .next { s with bm := bmIterate n (bmInit s.p[a]) } :=
  (runAll_cons _ rfl).trans (runAll_bmsteps n (by simpa [bmInit] using h))

/-! ### The rule-selection table (43_berlekamp_massey.md R194) -/

theorem keeps_iff (b : BmState) : b.keeps = true ↔ b.discrepancy = 0 ∨ 2 * b.d.toNat > b.l.toNat + 1 ∨
    (2 * b.d.toNat = b.l.toNat + 1 ∧ b.b = false) := by
  simp [BmState.keeps, or_assoc]

/-- Below degree 127 a shift by one loses nothing. -/
theorem coeff_shiftUp_one {q : Poly} (h : q.deg ≤ 126) (j : Nat) :
    (q.shiftUp 1).coeff j = if j = 0 then 0 else q.coeff (j - 1) := by
  rw [coeff_shiftUp]
  by_cases hj : j < 128
  · simp only [hj, true_and, Nat.one_le_iff_ne_zero, ite_not]
  · rw [if_neg (by omega), if_neg (by omega), coeff_above_deg q (by omega)]

theorem coeff_bmCorrect_of_deg (p : Poly) (delta : Elem) {q : Poly} (h : q.deg ≤ 126) (j : Nat) :
    (bmCorrect p delta q).coeff j = p.coeff j - delta * (if j = 0 then 0 else q.coeff (j - 1)) := by
  rw [bmCorrect, coeff_sub, coeff_scale, coeff_shiftUp_one h, mul_comm]

theorem coeff_scale_invElem_mul (q : Poly) {v : Elem} (h : v ≠ 0) (j : Nat) :
    (q.scale (invElem v)).coeff j * v = q.coeff j := by
  rw [coeff_scale, div_mul_cancel_elem _ h]

/-! ### The key equation (43_berlekamp_massey.md R195) -/

/-- The coefficient of z^j in `(1 + s)·p - q`, which the key equation of `p` and `q` makes 0. -/
def keyResidue (ws p q : Poly) (j : Nat) : Elem := keyCoeff ws p j - q.coeff j

theorem keyResidue_sub (ws p p' q q' : Poly) (j : Nat) :
    keyResidue ws (p.sub p') (q.sub q') j = keyResidue ws p q j - keyResidue ws p' q' j := by
  simp only [keyResidue, keyCoeff, funext (coeff_sub p p'), coeff_sub q q', convCoeff_sub_right]
  ring

theorem keyResidue_scale (ws p q : Poly) (v : Elem) (j : Nat) :
    keyResidue ws (p.scale v) (q.scale v) j = keyResidue ws p q j * v := by
  simp only [keyResidue, keyCoeff, funext (coeff_scale p v), coeff_scale q v, convCoeff_mul_right, sub_mul]

/-- Within the cells, a shift of both polynomials shifts the residue. -/
theorem keyResidue_shiftUp (ws p q : Poly) {j : Nat} (h : j < 128) :
    keyResidue ws (p.shiftUp 1) (q.shiftUp 1) j = if 1 ≤ j then keyResidue ws p q (j - 1) else 0 := by
  have hp : keyCoeff ws (p.shiftUp 1) j =
      convCoeff (onePlusCoeff ws) (fun i => if 1 ≤ i then p.coeff (i - 1) else 0) j :=
    convCoeff_congr (fun _ _ => rfl) fun i hi => by
      rw [coeff_shiftUp]
      simp only [show i < 128 by omega, true_and]
  rw [keyResidue, hp, coeff_shiftUp]
  cases j with
  | zero => rw [convCoeff_shift_right_zero, if_neg (by omega), if_neg (by omega), sub_zero]
  | succ j =>
    rw [convCoeff_shift_right, if_pos (by omega), if_pos (by omega)]
    rfl

/-- The invariant of the iteration: `(1 + s)·σ` and `ω` agree at the powers 0..l, while `(1 + s)·τ` and `γ` first
differ at the power l, by 1. Hence `Δ·z·τ` and `Δ·z·γ` take off exactly the discrepancy at the power l + 1. -/
structure BmState.KeyEquation (b : BmState) : Prop where
  sigma : ∀ j, j ≤ b.l.toNat → keyResidue b.ws b.sig b.om j = 0
  tau : ∀ j, j ≤ b.l.toNat → keyResidue b.ws b.tau b.gam j = if j = b.l.toNat then 1 else 0

theorem bmInit_keyEquation {ws : Poly} (h : ws.coeff 0 = 0) : (bmInit ws).KeyEquation := by
  have hone : keyCoeff ws Poly.one 0 = 1 := by
    simp [keyCoeff, convCoeff, sumTo, onePlusCoeff, h]
  constructor <;> intro j hj <;> obtain rfl : j = 0 := Nat.le_zero.1 hj
  · show keyCoeff ws Poly.one 0 - Poly.one.coeff 0 = 0
    rw [hone, coeff_one, if_pos rfl, sub_self]
  · show keyCoeff ws Poly.one 0 - Poly.zero.coeff 0 = 1
    rw [hone, coeff_zero, sub_zero]

section
variable {b : BmState} (hkey : b.KeyEquation)
include hkey

/-- ω stays at or below degree l, so at the power l + 1 the residue of σ and ω is the discrepancy. -/
theorem keyResidue_sigma_of_le_succ (hom : b.om.deg ≤ b.l.toNat) {j : Nat} (hj : j ≤ b.l.toNat + 1) :
    keyResidue b.ws b.sig b.om j = if j = b.l.toNat + 1 then b.discrepancy else 0 := by
  split
  · next htop =>
    rw [htop, keyResidue, coeff_above_deg b.om (by omega), sub_zero]
    rfl
  · exact hkey.sigma j (by omega)

theorem keyResidue_shifted_tau_of_le_succ (hl : b.l.toNat ≤ 126) {j : Nat} (hj : j ≤ b.l.toNat + 1) :
    keyResidue b.ws (b.tau.shiftUp 1) (b.gam.shiftUp 1) j = if j = b.l.toNat + 1 then 1 else 0 := by
  rw [keyResidue_shiftUp _ _ _ (by omega)]
  cases j with
  | zero => rfl
  | succ j =>
    rw [if_pos (by omega), Nat.add_sub_cancel, hkey.tau j (by omega)]
    simp only [Nat.add_right_cancel_iff]

theorem bmStep_keyEquation (hb : b.Bounded) (hl : b.l.toNat ≤ 126) : (bmStep b).KeyEquation := by
  obtain ⟨_, _, hom, _⟩ := hb
  have hl' := bmStep_l_toNat hl
  constructor <;> intro j hj <;> rw [hl'] at hj
  · rw [bmStep_ws, bmStep_sig, bmStep_om, bmCorrect, bmCorrect, keyResidue_sub, keyResidue_scale,
      keyResidue_sigma_of_le_succ hkey hom hj, keyResidue_shifted_tau_of_le_succ hkey hl hj, ite_mul, one_mul,
      zero_mul, sub_self]
  · rw [bmStep_ws, bmStep_tau, bmStep_gam, hl']
    cases hk : b.keeps
    · have hdelta := (keeps_false hk).1
      rw [if_neg (by simp), if_neg (by simp), keyResidue_scale, keyResidue_sigma_of_le_succ hkey hom hj, ite_mul,
        mul_invElem hdelta, zero_mul]
    · exact keyResidue_shifted_tau_of_le_succ hkey hl hj

theorem bmIterate_keyEquation (n : Nat) (hb : b.Bounded) (hl : b.l.toNat + n ≤ 127) :
    (bmIterate n b).KeyEquation := by
  induction n generalizing b with
  | zero => exact hkey
  | succ n ih =>
    have hlt : b.l.toNat ≤ 126 := by omega
    have hl' := bmStep_l_toNat hlt
    exact ih (bmStep_keyEquation hkey hb hlt) (bmStep_bounded hb hlt) (by omega)

end

/-! ### The results -/

/-- Settles O49: the working state BMINIT leaves, field by field. -/
theorem bminitResult : Obligations.BminitResult := fun a s =>
  ⟨hasEncoding (Laws.EncodesOpcode.bminit a) rfl rfl, { s with bm := bmInit s.p[a] }, rfl, rfl, rfl,
    fun j => ⟨coeff_one j, coeff_one j, coeff_one j, coeff_zero j⟩, rfl, rfl, rfl⟩

/-- Settles O50: the bounds keep every shift within the cells, and `keeps` is the condition of the table's no-update
rows. -/
theorem bmstepFollowsTheTable : Obligations.BmstepFollowsTheTable := by
  intro s delta hb hdelta
  obtain rfl : delta = s.bm.discrepancy := hdelta
  obtain ⟨_, _, _, htau, hgam, _, _⟩ := hb
  refine ⟨hasEncoding Laws.EncodesOpcode.bmstep rfl rfl, fun hl => ?_,
    fun hl => ⟨_, exec_bmstep_of_full hl, recordsFault_raise s _ _⟩⟩
  have htau126 := htau.trans hl
  have hgam126 := hgam.trans hl
  refine ⟨_, exec_bmstep_of_le hl, rfl, bmStep_ws s.bm, bmStep_l_toNat hl, fun j => ?_, fun j => ?_, ?_⟩
  · rw [bmStep_sig, coeff_bmCorrect_of_deg _ _ htau126]
  · rw [bmStep_om, coeff_bmCorrect_of_deg _ _ hgam126]
  · simp only [bmStep_tau, bmStep_gam, bmStep_d, bmStep_b]
    split
    · next hrow =>
      have hk := (keeps_iff s.bm).2 hrow
      simp only [hk, if_true, and_self, and_true]
      exact ⟨coeff_shiftUp_one htau126, coeff_shiftUp_one hgam126⟩
    · next hrow =>
      have hk : s.bm.keeps = false := Bool.eq_false_iff.2 fun h => hrow ((keeps_iff s.bm).1 h)
      have hne := (keeps_false hk).1
      simp only [hk, Bool.false_eq_true, if_false, and_true]
      exact ⟨coeff_scale_invElem_mul _ hne, coeff_scale_invElem_mul _ hne,
        (BitVec.toNat_ofNat _ _).trans (Nat.mod_eq_of_lt (by omega))⟩

/-- Settles O51: the commands one after the other iterate the function that RSBM iterates. -/
theorem rsbmIsBminitAndBmsteps : Obligations.RsbmIsBminitAndBmsteps := by
  intro d c a s
  refine ⟨fun h => ⟨_, exec_rsbm_of_eq a h, recordsFault_raise s _ _⟩,
    fun h => hasEncoding (Laws.EncodesOpcode.rsbm d c a) (decide_eq_true h) rfl, fun h hset => ?_,
    fun h hset => ⟨_, exec_rsbm_of_unset a h hset, recordsFault_raise s _ _⟩⟩
  have hnk : s.cfg.nk.toNat ≤ 127 := by omega
  obtain ⟨hd, hc⟩ := getElem_set_set (v := s.p) (bmIterate s.cfg.nk.toNat (bmInit s.p[a])).sig
    (bmIterate s.cfg.nk.toNat (bmInit s.p[a])).om h
  obtain ⟨_, hl, _⟩ := bmIterate_bounded s.cfg.nk.toNat (bmInit_bounded s.p[a]) (by simpa [bmInit] using hnk)
  exact ⟨_, _, runAll_bminit_bmsteps a s hnk, exec_rsbm_of_set a h hset, rfl, hd, hc,
    fun r hrd hrc => getElem_set_set_of_ne _ _ (by simp [hrd, hrc]), hl.trans (Nat.zero_add _)⟩

/-- The selector stands in the immediate of the word (43_berlekamp_massey.md R193). -/
theorem bits_encode_bmget (d : PReg) (sel : WSel) : bits (encode (.bmget d sel)) 13 0 = immOfSel sel := by
  have hlow : immOfSel sel < 2 ^ 14 := by cases sel <;> decide
  show bits (pack 0x25 d 0 0 (immOfSel sel)) 13 0 = _
  rw [bits, toNat_pack d 0 0 (by decide) hlow]
  omega

/-- Settles O52: one copy for every selector. -/
theorem bmgetResult : Obligations.BmgetResult := by
  intro d s
  have hcopy : ∀ sel : WSel, ∃ t, exec (.bmget d sel) s = .next t ∧ CopiesP s t d (s.bm.work sel) :=
    fun sel => ⟨_, rfl, copiesP_putP s d _⟩
  exact ⟨fun sel => hasEncoding (Laws.EncodesOpcode.bmget d sel) rfl rfl, bits_encode_bmget d .s,
    bits_encode_bmget d .sigma, bits_encode_bmget d .omega, bits_encode_bmget d .tau, bits_encode_bmget d .gamma,
    hcopy .s, hcopy .sigma, hcopy .omega, hcopy .tau, hcopy .gamma⟩

/-- Settles O53: BMINIT establishes the invariant of the key equation, and every BMSTEP keeps it. -/
theorem keyEquationHoldsAtEveryIteration : Obligations.KeyEquationHoldsAtEveryIteration := by
  intro a s n hs hn
  have hb := bmInit_bounded s.p[a]
  have hlimit : (bmInit s.p[a]).l.toNat + n ≤ 127 := by simpa [bmInit] using hn
  obtain ⟨⟨hsig, _⟩, hl, hws⟩ := bmIterate_bounded n hb hlimit
  have hl : (bmIterate n (bmInit s.p[a])).l.toNat = n := hl.trans (Nat.zero_add n)
  have hkey := bmIterate_keyEquation (bmInit_keyEquation hs) n hb hlimit
  exact ⟨_, runAll_bminit_bmsteps a s hn, hws, hl, hsig, fun j hj => sub_eq_zero.1 (hkey.sigma j (hl.symm ▸ hj))⟩

end Sys2Proof.Machine
end

section
/-! Proofs of the statements about the root finder, the Forney unit and the error polynomial (44_roots_forney.md R210 to
R212): the positions of a root list, the Forney product as a finite product, the answer of RSFORNEY, then each
result. -/

namespace Sys2Proof.Machine

open scoped Fin.CommRing

/-! ### The positions of a root list (44_roots_forney.md R210) -/

/-- The listed positions are those of the exponents in the list. -/
theorem exists_pos_errListOf_iff {ls : List Nat} (h : ls.length ≤ 58) (hm : ∀ l ∈ ls, 1 ≤ l ∧ l ≤ 58)
    (j : Fin 58) : (∃ i : Fin 58, i.val < (errListOf ls).cnt.val ∧ (errListOf ls).pos[i] = j) ↔
      58 - j.val ∈ ls := by
  have hcnt : (errListOf ls).cnt.val = ls.length := (errListOf_entry h hm 0).1
  have hpos : ∀ (i : Fin 58) (hi : i.val < ls.length), (errListOf ls).pos[i].val = 58 - ls[i.val] :=
    fun i hi => ((errListOf_entry h hm i).2.1 hi).1
  rw [hcnt]
  constructor
  · rintro ⟨i, hi, rfl⟩
    have hmem := List.getElem_mem hi
    obtain ⟨_, hle⟩ := hm _ hmem
    rwa [hpos i hi, Nat.sub_sub_self hle]
  · intro hmem
    obtain ⟨i, hi, hl⟩ := List.getElem_of_mem hmem
    refine ⟨⟨i, by omega⟩, hi, Fin.ext ?_⟩
    rw [hpos _ hi, hl]
    omega

/-- RSROOT lists the positions `j` with a root at 2^(58-j). -/
theorem exists_pos_rootExponents_iff (q : Poly) (j : Fin 58) :
    (∃ i : Fin 58, i.val < (errListOf (rootExponents q)).cnt.val ∧ (errListOf (rootExponents q)).pos[i] = j) ↔
      q.eval (pow2 (58 - j.val)) = 0 := by
  rw [exists_pos_errListOf_iff (rootExponents_length q) (fun l hl => ((mem_rootExponents q l).1 hl).1),
    mem_rootExponents]
  exact and_iff_right (by omega)

theorem errListOf_mag (ls : List Nat) (i : Fin 58) : (errListOf ls).mag[i] = 0 := by simp [errListOf]

/-! ### The Forney product (44_roots_forney.md R211) -/

/-- An entry `n` that is no factor, being `i` or past the list's end, adds none. -/
theorem filter_lt_succ_ne_of_excluded {i : Fin 58} {n : Nat} (h : ∀ m : Fin 58, m.val = n → m = i) :
    Finset.univ.filter (fun m : Fin 58 => m.val < n + 1 ∧ m ≠ i) =
      Finset.univ.filter fun m : Fin 58 => m.val < n ∧ m ≠ i :=
  Finset.filter_congr fun m _ => and_congr_left fun hm =>
    ⟨fun hlt => Nat.lt_of_le_of_ne (Nat.le_of_lt_succ hlt) (mt (h m) hm), Nat.lt_succ_of_lt⟩

/-- An entry `n` other than `i` is the one new factor. -/
theorem filter_lt_succ_ne_of_listed {i n : Fin 58} (h : n ≠ i) :
    Finset.univ.filter (fun m : Fin 58 => m.val < n.val + 1 ∧ m ≠ i) =
      insert n (Finset.univ.filter fun m : Fin 58 => m.val < n.val ∧ m ≠ i) := by
  ext m
  simp only [Finset.mem_insert, Finset.mem_filter_univ]
  omega

/-- The recursion over the entries is the product of the factors of the entries below `n` other than `i`. -/
theorem forneyProduct_eq_prod (loc : Vector Elem 58) (i : Fin 58) (x : Elem) (n : Nat) :
    forneyProduct loc i x n = ∏ m : Fin 58 with m.val < n ∧ m ≠ i, (1 - loc[m] * x) := by
  induction n with
  | zero => simp [forneyProduct]
  | succ n ih =>
    rw [forneyProduct, ih]
    split
    · next hn =>
      split
      · next hi => rw [filter_lt_succ_ne_of_excluded fun m hm => Fin.ext (hm.trans hi)]
      · next hi =>
        rw [filter_lt_succ_ne_of_listed (n := ⟨n, hn⟩) (Fin.ne_of_val_ne hi),
          Finset.prod_insert (by simp), mul_comm, Fin.getElem_fin]
    · next hn => rw [filter_lt_succ_ne_of_excluded (n := n) fun m hm => absurd (hm ▸ m.isLt) hn]

/-- A fold that multiplies is the product over the list's elements. -/
theorem foldl_filter_finRange_eq_prod (P : Fin 58 → Prop) [DecidablePred P] (f : Fin 58 → Elem) :
    ((List.finRange 58).filter fun m => decide (P m)).foldl (fun (pr : Elem) (m : Fin 58) => pr * f m) 1 =
      ∏ m : Fin 58 with P m, f m := by
  rw [← List.foldl_map (f := f) (g := fun pr v => pr * v), ← List.prod_eq_foldl,
    ← List.prod_toFinset f ((List.nodup_finRange 58).filter _), List.toFinset_filter, List.toFinset_finRange]
  simp

/-- The model's product is the rule's. -/
theorem forneyProduct_eq_foldl (loc : Vector Elem 58) (i : Fin 58) (x : Elem) (n : Nat) :
    forneyProduct loc i x n =
      ((List.finRange 58).filter fun m => decide (m.val < n ∧ m ≠ i)).foldl
        (fun (pr : Elem) (m : Fin 58) => pr * (1 - loc[m] * x)) 1 :=
  (forneyProduct_eq_prod loc i x n).trans
    (foldl_filter_finRange_eq_prod (fun m => m.val < n ∧ m ≠ i) fun m => 1 - loc[m] * x).symm

/-- With `x` the inverse of `u`, the factor of a location vanishes at `u` alone. -/
theorem one_sub_mul_eq_zero_iff {u x : Elem} (h : u * x = 1) (v : Elem) : 1 - v * x = 0 ↔ v = u := by
  have hx : IsUnit x := .of_mul_eq_one_right u h
  rw [sub_eq_zero, ← h, hx.mul_left_inj, eq_comm]

/-- A Forney product vanishes exactly when another entry has the location of entry `i`. -/
theorem forneyProduct_eq_zero_iff {loc : Vector Elem 58} {i : Fin 58} {x : Elem} (h : loc[i] * x = 1) (n : Nat) :
    forneyProduct loc i x n = 0 ↔ ∃ m : Fin 58, m.val < n ∧ m ≠ i ∧ loc[m] = loc[i] := by
  have : NoZeroDivisors Elem := ⟨elem_mul_eq_zero.1⟩
  rw [forneyProduct_eq_prod, Finset.prod_eq_zero_iff]
  simp only [Finset.mem_filter_univ, one_sub_mul_eq_zero_iff h, and_assoc]

/-! ### What RSFORNEY answers -/

theorem noInverseAt_iff (e : ErrList) (i : Fin 58) :
    e.noInverseAt i = true ↔ i.val < e.cnt.val ∧ (e.loc[i] = 0 ∨ e.product i = 0) := by
  simp [ErrList.noInverseAt]

/-- A location with the inverse `x` is not 0, and its product is taken at `x`. -/
theorem product_of_mul_eq_one {e : ErrList} {i : Fin 58} {x : Elem} (h : e.loc[i] * x = 1) :
    invElem e.loc[i] = x ∧ e.product i = forneyProduct e.loc i x e.cnt.val := by
  have hne : e.loc[i] ≠ 0 := by
    intro h0
    rw [h0, zero_mul] at h
    cases h
  have hx := eq_invElem hne h
  exact ⟨hx.symm, by rw [ErrList.product, hx]⟩

theorem magnitudes_of_lt {e : ErrList} (om : Poly) {i : Fin 58} (h : i.val < e.cnt.val) :
    (e.magnitudes om)[i] = om.eval (invElem e.loc[i]) * invElem (e.product i) := by
  simp [ErrList.magnitudes, h]

theorem magnitudes_of_ge {e : ErrList} (om : Poly) {i : Fin 58} (h : e.cnt.val ≤ i.val) :
    (e.magnitudes om)[i] = 0 := by
  simp [ErrList.magnitudes, h]

section
variable (a : PReg) {s : State}

theorem exec_rsforney_of_sound (h : s.errs.Sound) : exec (.rsforney a) s =
    .next { s with errs := { s.errs with mag := s.errs.magnitudes s.p[a] } } :=
  if_neg (by simp [sound_noInverseAt h])

theorem exec_rsforney_of_noInverseAt {i : Fin 58} (h : s.errs.noInverseAt i = true) :
    exec (.rsforney a) s = .next (s.raise (encode (.rsforney a)) .noInverse) :=
  if_pos (List.any_eq_true.2 ⟨i, List.mem_finRange i, h⟩)

end

/-- On a sound list the magnitude times the product is the evaluator's value. -/
theorem magnitudes_mul_forneyProduct {e : ErrList} (h : e.Sound) (om : Poly) {i : Fin 58} {x : Elem}
    (hi : i.val < e.cnt.val) (hx : e.loc[i] * x = 1) :
    (e.magnitudes om)[i] * forneyProduct e.loc i x e.cnt.val = om.eval x := by
  obtain ⟨hinv, hprod⟩ := product_of_mul_eq_one hx
  have hne : forneyProduct e.loc i x e.cnt.val ≠ 0 := by
    rw [Ne, forneyProduct_eq_zero_iff hx]
    rintro ⟨m, hm, hmi, heq⟩
    exact (sound_loc h hi hm).2 hmi heq
  rw [magnitudes_of_lt om hi, hinv, hprod, div_mul_cancel_elem _ hne]

/-! ### The results -/

/-- Settles O54: the list of the ascending exponents at which the Horner value, a sum of terms, is 0. -/
theorem rsrootListsExactlyTheRoots : Obligations.RsrootListsExactlyTheRoots := by
  intro a s
  refine ⟨hasEncoding (Laws.EncodesOpcode.rsroot a) rfl rfl, _, rfl, rfl, rsroot_sound s.p[a], fun j => ?_,
    errListOf_mag _, decide_eq_true_iff⟩
  simp only [← powElem_eq_iterate, ← eval_eq_sum _ _ (deg_lt _)]
  exact exists_pos_rootExponents_iff s.p[a] j

/-- Settles O55: distinct nonzero locations leave no product 0, and a product that is 0 has no inverse. -/
theorem rsforneyMagnitudes : Obligations.RsforneyMagnitudes := by
  intro a s
  simp only [← forneyProduct_eq_foldl, ← powElem_eq_iterate, ← eval_eq_sum _ _ (deg_lt _)]
  refine ⟨hasEncoding (Laws.EncodesOpcode.rsforney a) rfl rfl, fun h => ⟨_, exec_rsforney_of_sound a h, rfl,
    fun i => magnitudes_of_ge s.p[a], fun i x => magnitudes_mul_forneyProduct h s.p[a]⟩, ?_⟩
  rintro ⟨i, x, hi, hx, hzero⟩
  have hno : s.errs.noInverseAt i = true :=
    (noInverseAt_iff _ _).2 ⟨hi, .inr ((product_of_mul_eq_one hx).2.trans hzero)⟩
  exact ⟨_, exec_rsforney_of_noInverseAt a hno, recordsFault_raise s _ _⟩

/-- Settles O56: in a product without zero divisors, a factor vanishes at an equal location alone. -/
theorem forneyProductsVanishOnEqualLocations : Obligations.ForneyProductsVanishOnEqualLocations :=
  fun loc i x n => ⟨forneyProduct_eq_foldl loc i x n, fun _ h => forneyProduct_eq_zero_iff h n⟩

/-- Settles O57: positions that differ leave every magnitude in its own coefficient. -/
theorem rsepolyPlacesTheMagnitudes : Obligations.RsepolyPlacesTheMagnitudes := by
  intro d s
  refine ⟨hasEncoding (Laws.EncodesOpcode.rsepoly d) rfl rfl, _, _, rfl, writesP_putP_canon s d _, fun h =>
    ⟨fun i hi => ?_, fun j hj => ?_⟩⟩
  · exact (errPolyCoeff_spec h _ _ le_rfl).1 i hi rfl
  · exact (errPolyCoeff_spec h j _ le_rfl).2 hj

end Sys2Proof.Machine
end

section
/-! Proofs of the statements about faults (60_exceptions.md R230 to R250): the ways a step can go, what each leaves of
the fault record, and which commands raise CapacityExceeded. -/

namespace Sys2Proof.Machine

/-! ### The two ways a step goes -/

/-- A step is the host's next action, or it is the core's turn. -/
theorem step_cases (s : State) :
    (∃ op rest, s.agenda = .host op :: rest ∧
      step s = .next (({ s with agenda := rest } : State).hostAct op)) ∨
    ∃ rest, CoreTurn s rest ∧ step s = coreStep { s with agenda := rest } := by
  match h : s.agenda with
  | [] => exact .inr ⟨[], .inr ⟨h, rfl⟩, step_coreTurn (.inr ⟨h, rfl⟩)⟩
  | .core :: rest => exact .inr ⟨rest, .inl h, step_coreTurn (.inl h)⟩
  | .host op :: rest => exact .inl ⟨op, rest, rfl, step_host h⟩

theorem coreStep_idle {s : State} (h : s.activity = .idle) : coreStep s = .next s := by rw [coreStep, h]

theorem coreStep_resetting {s : State} (h : s.activity = .resetting) : coreStep s = .next s.finishReset := by
  rw [coreStep, h]

theorem runWord_next (w : Word) (s : State) : ∃ t, runWord w s = .next t := by
  rcases runWord_cases w s with ⟨_, _, h⟩ | ⟨_, _, _, _, h⟩ <;> exact ⟨_, h⟩

theorem coreStep_next (s : State) : ∃ t, coreStep s = .next t := by
  match h : s.activity with
  | .idle => exact ⟨_, coreStep_idle h⟩
  | .command w => exact coreStep_command h ▸ runWord_next w s
  | .resetting => exact ⟨_, coreStep_resetting h⟩

/-- Settles O7: the host's action is total, and so is each completion. -/
theorem everyStepAnswersNext : Obligations.EveryStepAnswersNext := by
  intro s
  rcases step_cases s with ⟨op, rest, _, h⟩ | ⟨rest, _, h⟩
  · exact ⟨_, h⟩
  · exact h ▸ coreStep_next _

/-- Settles O17: a silent host leaves the core its turn, and it has nothing to complete. -/
theorem idlingChangesNothing : Obligations.IdlingChangesNothing := by
  intro s hidle hagenda
  rw [step, hagenda]
  exact coreStep_idle hidle

/-! ### What the completion of a word leaves of the fault record -/

/-- A word in flight either is recorded as the faulting word, with one of the core's codes and no other effect, or
leaves ERR as it was. The word recorded is `w` itself, since encoding gives back what was decoded. -/
theorem runWord_raises_or_keeps_err {s t : State} {w : Word} (h : runWord w s = .next t) :
    (∃ k : FaultKind, k.code.toNat ≤ 7 ∧ t = s.raise w k) ∨ t.err = s.err := by
  rcases runWord_cases w s with ⟨_, _, heq⟩ | ⟨i, u, hdec, hu, heq⟩ <;> rw [h] at heq <;> cases heq
  · exact .inl ⟨.illegalCommand, by decide, rfl⟩
  · obtain ⟨_, hword⟩ := encodesEveryDecodedWord w i hdec
    rcases exec_ends i s with ⟨k, hk, heq⟩ | ⟨v, hv, heq⟩ <;> rw [hu] at heq <;> cases heq
    · exact .inl ⟨k, hk, by rw [hword]; rfl⟩
    · exact .inr (completes_record hv).1

/-- Settles O14: with ERR = 0 before and 1 after, the completion was FAULT ENTRY. -/
theorem faultsArePrecise : Obligations.FaultsArePrecise := by
  intro s t w rest herr hact hturn hstep ht
  rw [step_command hact hturn] at hstep
  rcases runWord_raises_or_keeps_err hstep with ⟨k, hk, heq⟩ | hkeeps
  · exact ⟨k.code, code_pos k, hk, heq⟩
  · rw [hkeeps, herr] at ht
    cases ht

/-! ### The fault record between faults (60_exceptions.md R237, R238) -/

/-- From `s` to `t` ERR, ECODE and ERRCMD keep their values. -/
def KeepsRecord (s t : State) : Prop := t.err = s.err ∧ t.ecode = s.ecode ∧ t.errcmd = s.errcmd

/-- A CTRL.CLR_ERR write: bit 1 set, and bit 0, which would begin a reset, clear (10_state.md R32). -/
def HostOp.IsClearErr (op : HostOp) : Prop :=
  ∃ addr v, op = .write addr v ∧ addr.toNat / 4 = 1 ∧ v.getLsbD 0 = false ∧ v.getLsbD 1 = true

theorem hostAct_write_clearErr (s : State) {addr : BitVec 16} {v : Word} (haddr : addr.toNat / 4 = 1)
    (h0 : v.getLsbD 0 = false) (h1 : v.getLsbD 1 = true) : s.hostAct (.write addr v) = s.clearErr := by
  rw [hostAct_write_ctrl s haddr, State.writeCtrl, if_neg (Bool.eq_false_iff.1 h0), if_pos h1]

theorem hostAct_of_isClearErr (s : State) {op : HostOp} (h : op.IsClearErr) : s.hostAct op = s.clearErr := by
  obtain ⟨addr, v, rfl, haddr, h0, h1⟩ := h
  exact hostAct_write_clearErr s haddr h0 h1

theorem issue_keepsRecord (s : State) (w : Word) : KeepsRecord s (s.issue w) := by
  rcases issue_cases s w with ⟨_, h⟩ | ⟨_, _, h⟩ <;> rw [h] <;> exact ⟨rfl, rfl, rfl⟩

/-- Of the host's actions CLR_ERR alone touches ERR, ECODE or ERRCMD. -/
theorem hostAct_keepsRecord (s : State) (op : HostOp) : op.IsClearErr ∨ KeepsRecord s (s.hostAct op) := by
  cases op with
  | read addr =>
    rw [State.hostAct, hostRead_frame]
    exact .inr ⟨rfl, rfl, rfl⟩
  | resetInput => exact .inr ⟨rfl, rfl, rfl⟩
  | write addr v =>
    rw [State.hostAct, State.hostWrite]
    split
    · exact .inr (issue_keepsRecord s v)
    · next hreg =>
      rcases writeCtrl_cases s v with ⟨_, h⟩ | ⟨h0, h1, _⟩ | ⟨_, _, h⟩
      · rw [h]
        exact .inr ⟨rfl, rfl, rfl⟩
      · exact .inl ⟨addr, v, rfl, (regOfWord_ctrl_iff _).1 hreg, h0, h1⟩
      · rw [h]
        exact .inr ⟨rfl, rfl, rfl⟩
    · exact .inr ⟨rfl, rfl, rfl⟩

/-- With no command in flight the core's turn completes a reset or leaves everything as it is. -/
theorem coreStep_of_not_command {s : State} (hno : ∀ w, s.activity ≠ .command w) :
    (s.activity = .resetting ∧ coreStep s = .next s.finishReset) ∨ coreStep s = .next s := by
  match h : s.activity with
  | .idle => exact .inr (coreStep_idle h)
  | .command w => exact absurd h (hno w)
  | .resetting => exact .inl ⟨rfl, coreStep_resetting h⟩

/-- With no command in flight a step keeps ERR, ECODE and ERRCMD, unless it is CLR_ERR or completes a reset. -/
theorem step_keepsRecord {s t : State} (hno : ∀ w, s.activity ≠ .command w) (h : step s = .next t) :
    ((∃ op rest, s.agenda = .host op :: rest ∧ op.IsClearErr) ∧ t.err = false) ∨
    ((s.activity = .resetting ∧ ∃ rest, CoreTurn s rest) ∧ t.err = false) ∨ KeepsRecord s t := by
  rcases step_cases s with ⟨op, rest, hagenda, heq⟩ | ⟨rest, hturn, heq⟩ <;> rw [h] at heq
  · cases heq
    rcases hostAct_keepsRecord { s with agenda := rest } op with hclear | hkeeps
    · rw [hostAct_of_isClearErr _ hclear]
      exact .inl ⟨⟨op, rest, hagenda, hclear⟩, rfl⟩
    · exact .inr (.inr hkeeps)
  · rcases coreStep_of_not_command (s := { s with agenda := rest }) hno with ⟨hact, hcore⟩ | hcore <;>
      rw [hcore] at heq <;> cases heq
    · exact .inr (.inl ⟨⟨hact, rest, hturn⟩, rfl⟩)
    · exact .inr (.inr ⟨rfl, rfl, rfl⟩)

/-- Settles O15: ERR = 1 leaves no command in flight, and the record then changes by the two ways back only. -/
theorem faultsAreSticky : Obligations.FaultsAreSticky := by
  intro s t hrec herr h
  have hno : ∀ w, s.activity ≠ .command w := by
    obtain ⟨_, _, hinFlight⟩ := hrec
    intro w hw
    rw [hinFlight w hw] at herr
    cases herr
  refine ⟨fun addr w rest hagenda haddr => ?_, ?_⟩
  · obtain ⟨hcmd, _⟩ := cmdWritesFollowTheProtocol
    rw [(hcmd s addr w rest haddr hagenda).1 (.inr herr)] at h
    cases h
    rfl
  · rcases step_keepsRecord hno h with ⟨⟨op, rest, hagenda, addr, v, rfl, hclear⟩, ht⟩ | ⟨hreset, ht⟩ |
      ⟨hkeeps, hcode, hcmd⟩
    · exact ⟨fun h1 => absurd (ht.symm.trans h1) Bool.false_ne_true,
        fun _ => .inl ⟨addr, v, rest, hagenda, hclear⟩⟩
    · exact ⟨fun h1 => absurd (ht.symm.trans h1) Bool.false_ne_true, fun _ => .inr hreset⟩
    · exact ⟨fun _ => ⟨hcode, hcmd⟩, fun h0 => absurd (h0.symm.trans (hkeeps.trans herr)) Bool.false_ne_true⟩

/-- A soft reset, once it completes, leaves no fault (60_exceptions.md R238; 10_state.md R40). -/
theorem softReset_clears (s : State) {addr : BitVec 16} (haddr : addr.toNat / 4 = 1) :
    ∃ r1 r2, step { s with agenda := [.host (.write addr 1)] } = .next r1 ∧ step r1 = .next r2 ∧
      r2.err = false ∧ r2.ecode = 0 ∧ r2.ovr = false ∧ r2.errcmd = 0 := by
  have hbegin := step_host (s := { s with agenda := [.host (.write addr 1)] }) rfl
  rw [hostAct_write_ctrl _ haddr, State.writeCtrl, if_pos (by decide)] at hbegin
  exact ⟨_, _, hbegin, rfl, rfl, rfl, rfl, rfl⟩

/-- Settles O16: CLR_ERR, then a CMD write that finds BUSY = 0 and ERR = 0, then the completion of its command. -/
theorem clearErrReturnsFromTheFault : Obligations.ClearErrReturnsFromTheFault := by
  intro s a1 a2 v w i ha1 ha2 h0 h1 hidle hdec hagenda
  obtain ⟨_, hclear, _⟩ := ctrlWritesResetOrClear s a1 v _ ha1 hagenda
  obtain ⟨hcmd, _⟩ := cmdWritesFollowTheProtocol
  obtain ⟨_, hissue⟩ := hcmd { s with
    agenda := [.host (.write a2 w)], err := false, ecode := 0, ovr := false, errcmd := 0 } a2 w [] ha2 rfl
  obtain ⟨u, hu⟩ := exec_next i { s with
    agenda := [], err := false, ecode := 0, ovr := false, errcmd := 0, activity := .command w }
  exact ⟨_, _, u, hclear h0 h1, rfl, hissue hidle rfl, rfl, hu,
    (step_command rfl (.inr ⟨rfl, rfl⟩)).trans (runWord_ok hdec hu), softReset_clears s ha1⟩

/-! ### CapacityExceeded (60_exceptions.md R231) -/

/-- The answer `r`, given at ERR = 0, records CapacityExceeded (code 6) exactly when `P` holds. -/
def ExceedsCapacityIff (P : Prop) (r : Result) : Prop := ∀ t, r = .next t → ((t.err = true ∧ t.ecode = 6) ↔ P)

section
variable {P C : Prop} [Decidable C] {s t : State} {x y : Result}

theorem exceedsCapacityIff_raise (w : Word) (hP : P) :
    ExceedsCapacityIff P (.next (s.raise w .capacityExceeded)) := by
  rintro _ ⟨⟩
  exact iff_of_true ⟨rfl, rfl⟩ hP

/-- A fault of another code. -/
theorem exceedsCapacityIff_raise_other (w : Word) {k : FaultKind} (hk : k.code ≠ 6) (hP : ¬ P) :
    ExceedsCapacityIff P (.next (s.raise w k)) := by
  rintro _ ⟨⟩
  exact iff_of_false (fun h => hk h.2) hP

theorem exceedsCapacityIff_completes (ht : t.err = false) (hP : ¬ P) : ExceedsCapacityIff P (.next t) := by
  rintro _ ⟨⟩
  exact iff_of_false (fun h => by rw [ht] at h; cases h.1) hP

theorem exceedsCapacityIff_ite (hx : C → ExceedsCapacityIff P x) (hy : ¬ C → ExceedsCapacityIff P y) :
    ExceedsCapacityIff P (if C then x else y) := by
  split
  · exact hx ‹_›
  · exact hy ‹_›

/-- A check that faults with another code leaves the question to what follows it. -/
theorem exceedsCapacityIff_check (w : Word) {k : FaultKind} (hk : k.code ≠ 6) (hP : ¬ P)
    (hy : ExceedsCapacityIff P y) : ExceedsCapacityIff P (if C then .next (s.raise w k) else y) :=
  exceedsCapacityIff_ite (fun _ => exceedsCapacityIff_raise_other w hk hP) fun _ => hy

end

theorem exceedsCapacityIff_pushOnto {s : State} (herr : s.err = false) (w : Word) (d : PReg) (v : Elem) :
    ExceedsCapacityIff (s.p[d].coeff 127 ≠ 0) (.next (s.pushOnto w d v)) := by
  by_cases h : s.p[d].coeff 127 = 0
  · rw [pushOnto_of_fits w v h]
    exact exceedsCapacityIff_completes herr fun hne => hne h
  · rw [pushOnto_of_full w v h]
    exact exceedsCapacityIff_raise w h

/-- Every command records CapacityExceeded under its condition of R231 alone: first the listed commands, then those
with a check of another code, then those with none. -/
theorem exec_exceedsCapacityIff (i : Instr) {s : State} (herr : s.err = false) :
    ExceedsCapacityIff (capacityExceeded i s) (exec i s) := by
  cases i with
  | ppush d a => exact exceedsCapacityIff_pushOnto herr _ d _
  | ppushi d imm =>
    show ExceedsCapacityIff (imm.toNat ≤ 58 ∧ s.p[d].coeff 127 ≠ 0) _
    by_cases himm : imm.toNat ≤ 58
    · rw [exec_ppushi_of_le himm, and_iff_right himm]
      exact exceedsCapacityIff_pushOnto herr _ d _
    · rw [exec_ppushi_of_gt (not_le.1 himm)]
      exact exceedsCapacityIff_raise_other _ (by decide) fun h => himm h.1
  | psetc | pmul | bmstep =>
    exact exceedsCapacityIff_ite (exceedsCapacityIff_raise _) (exceedsCapacityIff_completes herr)
  | pshl d a imm =>
    show ExceedsCapacityIff ((∃ j, s.p[a].coeff j ≠ 0) ∧ 127 < s.p[a].deg + imm.toNat) _
    rw [← isZero_eq_false_iff]
    refine exceedsCapacityIff_ite (fun hz => ?_) fun hz => exceedsCapacityIff_ite (fun h => ?_) fun h => ?_
    · exact exceedsCapacityIff_completes herr fun ⟨hne, _⟩ => Bool.eq_false_iff.1 hne hz
    · exact exceedsCapacityIff_raise _ ⟨Bool.eq_false_iff.2 hz, h⟩
    · exact exceedsCapacityIff_completes herr fun ⟨_, hdeg⟩ => h hdeg
  | fli d imm =>
    by_cases himm : imm.toNat ≤ 58
    · rw [exec_fli_of_le d himm]
      exact exceedsCapacityIff_completes herr id
    · rw [exec_fli_of_gt d (not_le.1 himm)]
      exact exceedsCapacityIff_raise_other _ (by decide) id
  | fpowf => exact exceedsCapacityIff_raise_other _ (by decide) id
  | fdiv | finv | rsforney =>
    exact exceedsCapacityIff_check _ (by decide) id (exceedsCapacityIff_completes herr id)
  | fpow =>
    exact exceedsCapacityIff_ite (fun _ => exceedsCapacityIff_completes herr id) fun _ =>
      exceedsCapacityIff_check _ (by decide) id (exceedsCapacityIff_completes herr id)
  | pdivmod =>
    exact exceedsCapacityIff_check _ (by decide) id
      (exceedsCapacityIff_check _ (by decide) id (exceedsCapacityIff_completes herr id))
  | rscfg | rssyn =>
    exact exceedsCapacityIff_ite (fun _ => exceedsCapacityIff_completes herr id) fun _ =>
      exceedsCapacityIff_raise_other _ (by decide) id
  | rsbm =>
    exact exceedsCapacityIff_check _ (by decide) id
      (exceedsCapacityIff_ite (fun _ => exceedsCapacityIff_completes herr id) fun _ =>
        exceedsCapacityIff_raise_other _ (by decide) id)
  | nop | fmov | fadd | fsub | fneg | fmul | feq | pclr | pmov | pgetc | padd | psub | pscale | pshr | peval
  | peq | bminit | bmget | rsroot | rsepoly => exact exceedsCapacityIff_completes herr id

/-- Settles O27: no command's answer depends on more than its condition of R231. -/
theorem capacityExceededExactlyWhereListed : Obligations.CapacityExceededExactlyWhereListed :=
  fun i _ t herr h => exec_exceedsCapacityIff i herr t h

end Sys2Proof.Machine
end

section
/-! Proofs of the statements about reset and about how a run ends (70_reset_and_hazards.md R260, R261, R270, R274): a
reset takes two steps from any state, and the host's view of a run tells what it ends with. -/

namespace Sys2Proof.Machine

/-! ### A reset begins and completes -/

theorem hostAct_write_softReset (s : State) {addr : BitVec 16} {v : Word} (haddr : addr.toNat / 4 = 1)
    (h0 : v.getLsbD 0 = true) : s.hostAct (.write addr v) = s.beginReset := by
  rw [hostAct_write_ctrl s haddr, State.writeCtrl, if_pos h0]

/-- A reset in progress completes in one step when the host is silent. -/
theorem step_resetting {s : State} (hact : s.activity = .resetting) (hagenda : s.agenda = []) :
    step s = .next s.finishReset := by
  rw [step, hagenda]
  exact coreStep_resetting hact

/-- Settles O10: both resets are `beginReset`, and its completion leaves nothing of the state but the host's side. -/
theorem resetsReachTheResetState : Obligations.ResetsReachTheResetState := by
  intro s op hop
  have hact : State.hostAct { s with agenda := [] } op = State.beginReset { s with agenda := [] } := by
    rcases hop with rfl | ⟨addr, v, rfl, haddr, h0⟩
    · rfl
    · exact hostAct_write_softReset _ haddr h0
  exact ⟨_, (step_host rfl).trans (congrArg _ hact), rfl, ⟨_, step_resetting rfl rfl, rfl⟩, rfl, rfl⟩

/-! ### How a run ends -/

/-- A word is lost, OVR = 1, only where ERR = 1 too, but for what a reset in progress will clear. -/
def State.LostAfterFault (s : State) : Prop := s.activity = .resetting ∨ (s.ovr = true → s.err = true)

/-- What the host's side of a run tells of the state: it may end only where it may issue, it may issue only while
BUSY = 0, and without CLR_ERR and SOFT_RESET a word is lost only after a fault. -/
structure RunSound (v : RunView) (s : State) : Prop where
  mayIssue_of_done : v.done = true → v.mayIssue = true
  idle_of_mayIssue : v.mayIssue = true → s.activity = .idle
  lostAfterFault : v.cleared = false → s.LostAfterFault

theorem RunSound.idle_of_done {v : RunView} {s : State} (h : RunSound v s) (hv : v.done = true) :
    s.activity = .idle :=
  h.idle_of_mayIssue (h.mayIssue_of_done hv)

/-- The host's view at a reset has observed nothing, and the old OVR and ERR are still to be cleared. -/
theorem runSound_start {s : State} (h : s.activity = .resetting) : RunSound RunView.start s :=
  ⟨fun h => (nomatch h), fun h => (nomatch h), fun _ => .inl h⟩

/-- A read that shows BUSY = 0 allows both an end and a CMD write, and every write undoes the end. -/
theorem after_mayIssue_of_done {v v' : RunView} {t : State} {ev : Event} (h : v.after t ev = some v')
    (hv : v.done = true → v.mayIssue = true) : v'.done = true → v'.mayIssue = true := by
  cases ev with
  | core => cases h; exact hv
  | host op =>
    cases op with
    | resetInput => cases h
    | read addr =>
      cases h
      rcases afterRead_cases v (regOfAddr addr) t.busData with ⟨_, _, heq⟩ | heq <;> rw [heq]
      · exact fun _ => rfl
      · exact hv
    | write addr w => rcases afterWrite_cases h with ⟨_, _, rfl⟩ | ⟨_, rfl⟩ <;> exact fun h => nomatch h

/-- A command leaves OVR as it was and never clears ERR. -/
theorem runWord_lostAfterFault {s t : State} {w : Word} (h : runWord w s = .next t)
    (hs : s.ovr = true → s.err = true) : t.ovr = true → t.err = true := by
  rcases runWord_cases w s with ⟨_, _, heq⟩ | ⟨i, u, _, hu, heq⟩ <;> rw [h] at heq <;> cases heq
  · exact fun _ => rfl
  · intro hovr
    have herr : s.err = true := hs ((exec_host hu).1.symm.trans hovr)
    by_contra hne
    rw [exec_err hu (Bool.eq_false_iff.2 hne)] at herr
    cases herr

theorem coreStep_lostAfterFault {s t : State} (h : coreStep s = .next t) (hs : s.LostAfterFault) :
    t.LostAfterFault := by
  match hact : s.activity with
  | .idle => rw [coreStep_idle hact] at h; cases h; exact hs
  | .resetting => rw [coreStep_resetting hact] at h; cases h; exact .inr fun hovr => nomatch hovr
  | .command w =>
    rw [coreStep_command hact] at h
    exact .inr (runWord_lostAfterFault h (hs.resolve_left (by simp [hact])))

/-- A word written while BUSY = 0 is lost only where ERR = 1. -/
theorem issue_lostAfterFault {s : State} (w : Word) (hidle : s.activity = .idle) (hs : s.LostAfterFault) :
    (s.issue w).LostAfterFault := by
  rcases issue_cases s w with ⟨hlost, heq⟩ | ⟨_, _, heq⟩ <;> rw [heq]
  · exact .inr fun _ => hlost.resolve_left fun h => h hidle
  · exact .inr (hs.resolve_left (by simp [hidle]))

/-- Where neither CLR_ERR nor SOFT_RESET is written, an event of a run loses a word only after a fault. -/
theorem runEvent_lostAfterFault {v v' : RunView} {s t : State} {ev : Event} (hstep : runEvent s ev = .next t)
    (h : v.after t ev = some v') (hidle : v.mayIssue = true → s.activity = .idle) (hv : v'.cleared = false)
    (hs : s.LostAfterFault) : t.LostAfterFault := by
  cases ev with
  | core => exact coreStep_lostAfterFault hstep hs
  | host op =>
    cases hstep
    cases op with
    | resetInput => cases h
    | read addr => rw [State.hostAct, hostRead_frame]; exact hs
    | write addr w =>
      rcases afterWrite_cases h with ⟨hr, hmay, _⟩ | ⟨hr, rfl⟩
      · rw [hostAct_write_cmd s ((regOfWord_cmd_iff _).1 hr)]
        exact issue_lostAfterFault w (hidle hmay) hs
      · obtain ⟨⟨_, h0⟩, h1⟩ : (v.cleared = false ∧ w.getLsbD 0 = false) ∧ w.getLsbD 1 = false := by
          simpa using hv
        rw [hostAct_write_ctrl s ((regOfWord_ctrl_iff _).1 hr), writeCtrl_of_clear h0 h1]
        exact hs

theorem runEvent_runSound {v v' : RunView} {s t : State} {ev : Event} (hstep : runEvent s ev = .next t)
    (h : v.after t ev = some v') (hs : RunSound v s) : RunSound v' t where
  mayIssue_of_done := after_mayIssue_of_done h hs.mayIssue_of_done
  idle_of_mayIssue := after_mayIssue hstep h hs.idle_of_mayIssue
  lostAfterFault hv :=
    runEvent_lostAfterFault hstep h hs.idle_of_mayIssue hv (hs.lostAfterFault (after_cleared h hv))

theorem runOn_runSound {v v' : RunView} {s t : State} {evs : List Event} (h : runOn v s evs = some (v', t))
    (hs : RunSound v s) : RunSound v' t := by
  induction evs generalizing v s with
  | nil => cases h; exact hs
  | cons ev evs ih =>
    obtain ⟨u, v1, hstep, hafter, hrest⟩ := runOn_cons h
    have hs0 : RunSound v { s with agenda := [] } := ⟨hs.mayIssue_of_done, hs.idle_of_mayIssue, hs.lostAfterFault⟩
    exact ih hrest (runEvent_runSound (s := { s with agenda := [] }) hstep hafter hs0)

theorem hostRun_runSound {v : RunView} {s t : State} {op : HostOp} {evs : List Event}
    (h : hostRun s op evs = some (v, t)) : RunSound v t :=
  runOn_runSound (hostRun_start h) (runSound_start rfl)

/-- Settles O59: the host's view at the end of a run is sound, and it has observed BUSY = 0. -/
theorem runsEndIdleAndReadBack : Obligations.RunsEndIdleAndReadBack := by
  refine fun s t op evs => ⟨fun ⟨v, hrun, hdone⟩ => ?_, fun v hrun hdone hv => ?_⟩
  · have hidle : t.activity = .idle := (hostRun_runSound hrun).idle_of_done hdone
    exact ⟨hidle, fun _ => hostRead_busData rfl (.inl hidle)⟩
  · have hidle : t.activity = .idle := (hostRun_runSound hrun).idle_of_done hdone
    exact ((hostRun_runSound hrun).lostAfterFault hv).resolve_left (by simp [hidle])

end Sys2Proof.Machine
end
